-- ==== Sys2Proof/Word.lean ====
section
/-! DEFINITION. The byte, the narrowing of an exact result to a byte, and the operand byte as the
fetch delivers it (spec/00_scope.md R7, spec/40_engine.md R102). -/

namespace Sys2Proof

/-- A byte: an unsigned value in 0 to 255 (R7). Register contents, memory cells and instruction bytes. -/
abbrev Byte := BitVec 8

/-- The byte that an exact natural number leaves modulo 256 (R7, R141). -/
def narrow (n : Nat) : Byte := BitVec.ofNat 8 n

/-- An operand byte as the fetch delivers it to a handler (R102): the byte read, or the address above
255 that held none. The second form arises only under OPERAND_FETCH_OOB = `fault_if_used`. -/
inductive Operand where
  | present (v : Byte)
  | absent (addr : Nat)
  deriving DecidableEq, Repr

end Sys2Proof
end

