-- ==== Sys2Proof/Machine/Memory.lean ====
section
/-! DEFINITION. The memory: 256 byte cells at addresses 0 to 255 (spec/20_memory.md R50, R55), held as
the list of the cells that differ from what an unlisted address reads as, addresses strictly rising. -/

namespace Sys2Proof.Machine

/-- Memory as plain data: address and byte pairs. -/
abbrev Memory := List Host.Cell

/-- What an unlisted address reads as. The spec leaves the start content open (MEM_INIT, R230, R234);
`resetWith` (Sys2Proof/Machine/Ports.lean) takes it as an argument, and this byte is only how memory is
written down.
DESIGN CHOICE (log entry 2), unsafe: `State.reset` lists nothing, so it is the launch with MEM_INIT = 0. -/
def unlistedByte : Byte := 0#8

/-- The byte at an address (R51, R55). -/
def Memory.get : Memory → Nat → Byte
  | [], _ => unlistedByte
  | (a, v) :: rest, x => if x = a then v else Memory.get rest x

/-- A cell before a memory, left out when it says what an unlisted address reads as. -/
def consCell (a : Nat) (v : Byte) (m : Memory) : Memory :=
  if v = unlistedByte then m else (a, v) :: m

/-- The memory with one byte written (R51, R55), in canonical form. -/
def Memory.set : Memory → Nat → Byte → Memory
  | [], x, v => consCell x v []
  | (a, w) :: rest, x, v =>
    if x < a then consCell x v ((a, w) :: rest)
    else if x = a then consCell a v rest
    else (a, w) :: Memory.set rest x v

/-- The canonical form from an address on: addresses strictly rising, at least `lo` and below 256,
and no entry equal to what an unlisted address reads as. -/
def Memory.wfFrom : Nat → Memory → Bool
  | _, [] => true
  | lo, (a, v) :: rest =>
    decide (lo ≤ a) && decide (a < 256) && decide (v ≠ unlistedByte) && Memory.wfFrom (a + 1) rest

/-- The canonical form of a memory. -/
def Memory.wf (m : Memory) : Bool := Memory.wfFrom 0 m

end Sys2Proof.Machine
end

