-- ==== Sys2Proof/Machine/State.lean ====
section
/-! DEFINITION. The architectural state (spec/10_state.md R20 to R36), the state after reset, and the
reasons a step has no next state. -/

namespace Sys2Proof.Machine

/-- The cause of a fatal condition (R30, R200 to R203). -/
inductive Cause where
  /-- code 1: a memory index above 255 (R201) -/
  | addressOutOfRange
  /-- code 2: a register index above 7 (R202) -/
  | registerOutOfRange
  /-- code 3: an ALU operation outside ADD, SUB and MUL; no step reaches it (R203) -/
  | unsupportedOperation
  deriving DecidableEq, Repr

/-- Why the engine halted without a fault (R30). -/
inductive HaltReason where
  /-- HLT executed (R120) -/
  | hlt
  /-- a byte with no dispatch-table entry was fetched: the byte and its address (R105) -/
  | unknownOpcode (opcode : Byte) (pc : Nat)
  deriving DecidableEq, Repr

/-- The engine status (R30). -/
inductive Status where
  | running
  | halted (reason : HaltReason)
  | faulted (cause : Cause) (info : Nat)
  deriving DecidableEq, Repr

/-- The whole architectural state (R36). -/
structure State where
  /-- R0 to R7; R7 is the stack pointer, one storage cell (R20, R23) -/
  regs : Vector Byte 8
  /-- the program counter, a natural number with no wrap-around (R26) -/
  pc : Nat
  /-- the 256 byte cells (R33, R50) -/
  mem : Memory
  /-- the engine status (R30) -/
  status : Status
  /-- the PRN emissions, oldest first (R31) -/
  out : List Byte
  deriving DecidableEq, Repr

/-- The host interface's fault. It has no constructor: a fatal condition of this hardware is a state
the spec describes, status Faulted with everything else kept (R100, R206), so a step answers it as a
next state, and no step of this model ends in a fault of the interface (log entry 1; safe). -/
inductive Fault where
  deriving DecidableEq, Repr

/-- Why there is no step. -/
inductive Refusal where
  /-- raised by exec's arm of an instruction that has no meaning yet; no arm of this model raises it (safe) -/
  | notModelled (mnemonic : String)
  /-- raised by stepWith from a Halted or Faulted state: the spec defines no step there and refuses
  STEP (R41; safe) -/
  | notRunning
  /-- raised by stepWith when SUB_OPCODE is one of the nine assigned bytes: the spec refuses the
  configuration (R76; safe) -/
  | configuration
  deriving DecidableEq, Repr

/-- The machine right after reset (R25, R37, R230, R232). Memory lists nothing: MEM_INIT is 0 here, a
DESIGN CHOICE (log entry 2, unsafe); `resetWith` is the reset with MEM_INIT as an argument. -/
def State.reset : State where
  regs := #v[0x00#8, 0x00#8, 0x00#8, 0x00#8, 0x00#8, 0x00#8, 0x00#8, 0xF4#8]
  pc := 0
  mem := []
  status := .running
  out := []

end Sys2Proof.Machine
end

