-- ==== Sys2Proof/Machine/Ops.lean ====
section
/-! DEFINITION. The operations every handler is written over: registers, the checked memory primitives,
the stack primitives, the output, the halt, and taking a fatal condition (spec/00_scope.md R8, R9;
spec/20_memory.md R51; spec/43_stack.md R162, R164; spec/60_exceptions.md R206). -/

namespace Sys2Proof.Machine

/-- A condition raised: `raise E(info)` of R8. -/
structure Raised where
  cause : Cause
  info : Nat
  deriving DecidableEq, Repr

/-! Registers. -/

/-- `x[k]` (R8, R20). -/
def State.reg (s : State) (k : Fin 8) : Byte := s.regs[k.val]

/-- `x[k] <- v` (R8, R20). -/
def State.setReg (s : State) (k : Fin 8) (v : Byte) : State :=
  { s with regs := s.regs.set k.val v k.isLt }

/-- SP is register 7 itself (R23). -/
def State.sp (s : State) : Byte := s.reg 7

/-- `SP <- v` is `x[7] <- v` (R8, R23). -/
def State.setSp (s : State) (v : Byte) : State := s.setReg 7 v

/-- `checkReg` (R9, R24): an index byte above 7 raises RegisterOutOfRange. -/
def checkReg (i : Byte) : Except Raised (Fin 8) :=
  if h : i.toNat < 8 then .ok ⟨i.toNat, h⟩ else .error ⟨.registerOutOfRange, i.toNat⟩

/-! The program counter, the output and the status. -/

/-- `pc <- target` (R8). -/
def State.setPc (s : State) (target : Nat) : State := { s with pc := target }

/-- A handler's own advance of pc by its width (R106). -/
def State.advance (s : State) (width : Nat) : State := s.setPc (s.pc + width)

/-- `emit` (R8, R31): the byte is appended to the output sequence. -/
def State.emit (s : State) (v : Byte) : State := { s with out := s.out ++ [v] }

/-- `halt` (R8): the status becomes Halted and nothing else changes. -/
def State.halt (s : State) (reason : HaltReason) : State := { s with status := .halted reason }

/-! Memory. -/

/-- The byte at an address, with no check. -/
def State.byteAt (s : State) (a : Nat) : Byte := s.mem.get a

/-- The byte at an address replaced, with no check. -/
def State.setByte (s : State) (a : Nat) (v : Byte) : State := { s with mem := s.mem.set a v }

/-- `checkAddr` (R9): an address above 255 raises AddressOutOfRange. -/
def checkAddr (a : Nat) : Except Raised Unit :=
  if a ≤ 255 then .ok () else .error ⟨.addressOutOfRange, a⟩

/-- `MemRead(a, 1)` (R51). -/
def memRead (a : Nat) (s : State) : Except Raised Byte :=
  match checkAddr a with
  | .ok _ => .ok (s.byteAt a)
  | .error e => .error e

/-- `MemWrite(a, 1, v)` (R51). -/
def memWrite (a : Nat) (v : Byte) (s : State) : Except Raised State :=
  match checkAddr a with
  | .ok _ => .ok (s.setByte a v)
  | .error e => .error e

/-! The stack (R160 to R164). -/

/-- `SP <- (SP - 1) mod 256` (R161, R162). -/
def decSp (s : State) : State := s.setSp (s.sp - 1#8)

/-- `SP <- (SP + 1) mod 256` (R161, R164). -/
def incSp (s : State) : State := s.setSp (s.sp + 1#8)

/-- `MemWrite(SP, 1, v)`: the store of a push, after the decrement (R162). -/
def storeTop (v : Byte) (s : State) : Except Raised State := memWrite s.sp.toNat v s

/-- `MemRead(SP, 1)`: the load of a pop, before the increment (R164). -/
def loadTop (s : State) : Except Raised Byte := memRead s.sp.toNat s

/-! Taking a fatal condition, and the end of a handler. -/

/-- A fatal condition aborts the run: the status becomes Faulted and nothing else changes, so pc still
addresses the instruction that faulted (R206). Nothing returns from it (R207). -/
def takeFault (e : Raised) (s : State) : State := { s with status := .faulted e.cause e.info }

/-- The outcome of a handler run from `s`: its final state, or the fatal condition it raised, taken from
`s` itself, so that a handler that raises has written nothing (R9, R206). -/
def finish (s : State) : Except Raised State → Host.Outcome State Fault Refusal
  | .ok t => .next t
  | .error e => .next (takeFault e s)

end Sys2Proof.Machine
end

