-- ==== Sys2Proof/Machine/Flags.lean ====
section
/-! DEFINITION. The ALU's results (spec/42_alu.md R140, R141). There is no flag to compute: the hardware
has none, and every carry, borrow and high byte is dropped (spec/10_state.md R28). -/

namespace Sys2Proof.Machine

/-- An operation handed to the ALU: the three it supports, and any other (R140, R142). -/
inductive AluOp where
  | add
  | sub
  | mul
  /-- an operation outside ADD, SUB and MUL, by a number of its own; no handler passes one (R142).
  DESIGN CHOICE (log entry 13): the spec gives such an operation no number. -/
  | other (code : Nat)
  deriving DecidableEq, Repr

/-- The result of an ALU operation on the destination's value and the source's: computed exactly, then
taken modulo 256 (R140, R141). -/
def aluResult (op : AluOp) (d s : Byte) : Except Raised Byte :=
  match op with
  | .add => .ok (narrow (d.toNat + s.toNat))
  | .sub => .ok (narrow (d.toNat + (256 - s.toNat) % 256))
  | .mul => .ok (narrow (d.toNat * s.toNat))
  | .other code => .error ⟨.unsupportedOperation, code⟩

/-- `ALU.apply` (R140): both values are read before the write-back to the destination, and pc does not
move. -/
def aluApply (op : AluOp) (d src : Fin 8) (s : State) : Except Raised State :=
  match aluResult op (s.reg d) (s.reg src) with
  | .ok v => .ok (s.setReg d v)
  | .error e => .error e

end Sys2Proof.Machine
end

