-- ==== Sys2Proof/Machine/Operands.lean ====
section
/-! DEFINITION. The two operand forms: a literal byte and a register index, each read through `use`
(spec/40_engine.md R103, spec/30_encoding.md R72). -/

namespace Sys2Proof.Machine

/-- `use` (R103): the byte, or AddressOutOfRange at the address that held none. -/
def useByte : Operand → Except Raised Byte
  | .present v => .ok v
  | .absent addr => .error ⟨.addressOutOfRange, addr⟩

/-- A register-index operand: used, then checked whole, with no masking (R24, R72, R205). -/
def useReg (o : Operand) : Except Raised (Fin 8) :=
  match useByte o with
  | .ok v => checkReg v
  | .error e => .error e

end Sys2Proof.Machine
end

