-- ==== Sys2Proof/Machine/Alu.lean ====
section
/-! DEFINITION. ADD, SUB and MUL (spec/42_alu.md). -/

namespace Sys2Proof.Machine

/-- The handler shared by the three ALU instructions: d is used and checked before s (R143, R145, R147,
R205). -/
def aluHandler (op : AluOp) (a b : Operand) (s : State) : Host.Outcome State Fault Refusal :=
  finish s do
    let d ← useReg a
    let src ← useReg b
    let t ← aluApply op d src s
    .ok (t.advance 3)

/-- ADD (R143). -/
def execAdd (a b : Operand) (s : State) : Host.Outcome State Fault Refusal := aluHandler .add a b s

/-- SUB (R145). -/
def execSub (a b : Operand) (s : State) : Host.Outcome State Fault Refusal := aluHandler .sub a b s

/-- MUL (R147). -/
def execMul (a b : Operand) (s : State) : Host.Outcome State Fault Refusal := aluHandler .mul a b s

end Sys2Proof.Machine
end

