-- ==== Sys2Proof/Machine/Basic.lean ====
section
/-! DEFINITION. HLT, LDI and PRN (spec/41_basic.md). -/

namespace Sys2Proof.Machine

/-- HLT (R120). -/
def execHlt (s : State) : Host.Outcome State Fault Refusal :=
  finish s (.ok (s.halt .hlt))

/-- LDI (R122). -/
def execLdi (a b : Operand) (s : State) : Host.Outcome State Fault Refusal :=
  finish s do
    let r ← useReg a
    let v ← useByte b
    .ok ((s.setReg r v).advance 3)

/-- PRN (R124). -/
def execPrn (a : Operand) (s : State) : Host.Outcome State Fault Refusal :=
  finish s do
    let r ← useReg a
    .ok ((s.emit (s.reg r)).advance 2)

end Sys2Proof.Machine
end

