-- ==== Sys2Proof/Machine/Stack.lean ====
section
/-! DEFINITION. PUSH and POP (spec/43_stack.md). -/

namespace Sys2Proof.Machine

/-- PUSH (R163): the register is read after the decrement, so PUSH R7 stores the decremented SP. -/
def execPush (a : Operand) (s : State) : Host.Outcome State Fault Refusal :=
  finish s do
    let r ← useReg a
    let t ← storeTop ((decSp s).reg r) (decSp s)
    .ok (t.advance 2)

/-- POP (R166): the register is written before SP is read for the increment, so POP R7 leaves the popped
byte plus one. -/
def execPop (a : Operand) (s : State) : Host.Outcome State Fault Refusal :=
  finish s do
    let r ← useReg a
    let v ← loadTop s
    .ok ((incSp (s.setReg r v)).advance 2)

end Sys2Proof.Machine
end

