-- ==== Sys2Proof/Machine/Subroutine.lean ====
section
/-! DEFINITION. CALL and RET (spec/44_subroutine.md). -/

namespace Sys2Proof.Machine

/-- CALL's return address, the byte after its operand (R183), as a byte: above 255 it does not fit a
cell and raises AddressOutOfRange (R182). -/
def returnAddress (pc : Nat) : Except Raised Byte :=
  match checkAddr (pc + 2) with
  | .ok _ => .ok (narrow (pc + 2))
  | .error e => .error e

/-- CALL (R182): the target register is read after the push. -/
def execCall (a : Operand) (s : State) : Host.Outcome State Fault Refusal :=
  finish s do
    let r ← useReg a
    let back ← returnAddress s.pc
    let t ← storeTop back (decSp s)
    .ok (t.setPc (t.reg r).toNat)

/-- RET (R185). -/
def execRet (s : State) : Host.Outcome State Fault Refusal :=
  finish s do
    let v ← loadTop s
    .ok ((incSp s).setPc v.toNat)

end Sys2Proof.Machine
end

