-- ==== Sys2Proof/Syntax.lean ====
section
/-! DEFINITION. The ten instructions of spec/opcode_table.json, each with the operands its handler
names (spec/30_encoding.md R73). Operands are kept as the fetch delivers them: a register index is a
whole byte, not masked (R24, R72), and it may be absent at the top of memory (R102, R103). -/

namespace Sys2Proof

inductive Instr where
  /-- HLT, halt (R120) -/
  | hlt
  /-- LDI, load immediate: a destination register, b literal (R122) -/
  | ldi (a b : Operand)
  /-- PRN, print register: a source register (R124) -/
  | prn (a : Operand)
  /-- ADD, add registers: a destination and first source, b second source (R143) -/
  | add (a b : Operand)
  /-- SUB, subtract registers: a destination and minuend, b subtrahend (R145) -/
  | sub (a b : Operand)
  /-- MUL, multiply registers: a destination and first source, b second source (R147) -/
  | mul (a b : Operand)
  /-- PUSH, push register: a source register (R163) -/
  | push (a : Operand)
  /-- POP, pop into register: a destination register (R166) -/
  | pop (a : Operand)
  /-- CALL, call subroutine: a register that holds the target address (R182) -/
  | call (a : Operand)
  /-- RET, return from subroutine (R185) -/
  | ret
  deriving DecidableEq, Repr

end Sys2Proof
end

