-- ==== Sys2Proof/Config.lean ====
section
/-! DEFINITION. The two OPEN parameters that are configuration, fixed when the engine is built
(spec/00_scope.md R6, spec/10_state.md R36). The third OPEN parameter, MEM_INIT, is an argument of the
launch (Sys2Proof/Machine/Ports.lean). Everything else R6 lists has one value, stated where it is used. -/

namespace Sys2Proof

/-- OPERAND_FETCH_OOB (R6, R102; decision D6): what an operand fetch above address 255 does. -/
inductive OperandFetchOob where
  /-- the fetch itself raises AddressOutOfRange, whatever the opcode (the default) -/
  | faultAlways
  /-- the byte is absent, and only a handler that uses it raises AddressOutOfRange -/
  | faultIfUsed
  deriving DecidableEq, Repr

/-- The configuration of an engine: the arguments of the model that R6 marks OPEN and R36 calls
configuration. The defaults stand in `Sys2Proof.referenceConfig` (Sys2Proof/Decode.lean). -/
structure Config where
  /-- SUB_OPCODE (R76; decision D7): the byte that selects SUB, if any -/
  subOpcode : Option Byte
  /-- OPERAND_FETCH_OOB (R102; decision D6) -/
  operandFetchOob : OperandFetchOob
  deriving DecidableEq, Repr

end Sys2Proof
end

