-- ==== Sys2Proof/WellFormed.lean ====
section
/-! DEFINITION. Two checks on an instruction: whether it can be written as bytes (every operand it
names is a byte, spec/30_encoding.md R70, R71), and whether it has an assembler spelling (every register
operand is in 0 to 7, R80). An instruction that passes the first and not the second still decodes and
runs: its handler raises RegisterOutOfRange (spec/10_state.md R24). -/

namespace Sys2Proof

/-- The operand is a byte. -/
def Operand.isByte : Operand → Bool
  | .present _ => true
  | .absent _ => false

/-- The operand is a byte that names a register, 0 to 7 (R24, R72). -/
def Operand.isReg : Operand → Bool
  | .present v => decide (v.toNat < 8)
  | .absent _ => false

/-- Every operand the instruction names is a byte (R70, R71). -/
def Instr.wf : Instr → Bool
  | .hlt => true
  | .ldi a b => a.isByte && b.isByte
  | .prn a => a.isByte
  | .add a b => a.isByte && b.isByte
  | .sub a b => a.isByte && b.isByte
  | .mul a b => a.isByte && b.isByte
  | .push a => a.isByte
  | .pop a => a.isByte
  | .call a => a.isByte
  | .ret => true

/-- The instruction has an assembler spelling: its register operands are in 0 to 7 (R80). -/
def Instr.spellable : Instr → Bool
  | .hlt => true
  | .ldi a b => a.isReg && b.isByte
  | .prn a => a.isReg
  | .add a b => a.isReg && b.isReg
  | .sub a b => a.isReg && b.isReg
  | .mul a b => a.isReg && b.isReg
  | .push a => a.isReg
  | .pop a => a.isReg
  | .call a => a.isReg
  | .ret => true

end Sys2Proof
end

