-- ==== Sys2Proof/Decode.lean ====
section
/-! DEFINITION. The opcode table, the dispatch table, the decoder, the encoder and the assembler
spelling (spec/30_encoding.md). The decoder and the encoder read the same table. -/

namespace Sys2Proof

/-- The handlers of the dispatch table: the ten mnemonics of R2. -/
inductive Mnemonic where
  | hlt | ldi | prn | add | sub | mul | push | pop | call | ret
  deriving DecidableEq, Repr

/-- The opcode table of R75, in its order (sorted by opcode value). -/
def opcodeTable : List (Byte × Mnemonic) :=
  [(0b00000001#8, .hlt), (0b00010001#8, .ret), (0b01000101#8, .push), (0b01000110#8, .pop),
   (0b01000111#8, .prn), (0b01010000#8, .call), (0b10000010#8, .ldi), (0b10100000#8, .add),
   (0b10100010#8, .mul)]

/-- The width of an instruction in bytes, from its table row (R71, R75). SUB has the 3-byte form of
ADD and MUL when it is wired (R76). -/
def Mnemonic.width : Mnemonic → Nat
  | .hlt => 1
  | .ldi => 3
  | .prn => 2
  | .add => 3
  | .sub => 3
  | .mul => 3
  | .push => 2
  | .pop => 2
  | .call => 2
  | .ret => 1

/-- The dispatch table of R32: the nine rows of R75, and SUB's when SUB_OPCODE is set (R76). -/
def dispatchTable (c : Config) : List (Byte × Mnemonic) :=
  opcodeTable ++ (c.subOpcode.map fun b => (b, Mnemonic.sub)).toList

/-- A configuration is admitted when SUB_OPCODE is none of the nine assigned bytes (R76). -/
def Config.valid (c : Config) : Bool :=
  c.subOpcode.all fun b => !(opcodeTable.map Prod.fst).contains b

/-- The default of every OPEN parameter (R6): SUB is not wired and an operand fetch above 255 faults. -/
def referenceConfig : Config := { subOpcode := none, operandFetchOob := .faultAlways }

/-- The handler of an opcode byte: an exact match of the whole byte (R74, R104). -/
def lookup : List (Byte × Mnemonic) → Byte → Option Mnemonic
  | [], _ => none
  | (b, m) :: rest, op => if op = b then some m else lookup rest op

/-- The instruction a handler makes of the two fetched operands: it keeps those it names (R73, R103). -/
def Mnemonic.instr (a b : Operand) : Mnemonic → Instr
  | .hlt => .hlt
  | .ldi => .ldi a b
  | .prn => .prn a
  | .add => .add a b
  | .sub => .sub a b
  | .mul => .mul a b
  | .push => .push a
  | .pop => .pop a
  | .call => .call a
  | .ret => .ret

/-- Why bytes are no instruction. -/
inductive DecodeReject where
  /-- the opcode byte has no dispatch-table entry (R78, R105) -/
  | unknownOpcode (opcode : Byte)
  /-- a byte string that ends before the instruction does: never met by the engine, which fetches
  from memory (R102; DESIGN CHOICE, log entry 21) -/
  | truncated
  deriving DecidableEq, Repr

/-- Decode of a fetched opcode and its two fetched operands (R104). -/
def decode (c : Config) (opcode : Byte) (a b : Operand) : Except DecodeReject Instr :=
  match lookup (dispatchTable c) opcode with
  | some m => .ok (m.instr a b)
  | none => .error (.unknownOpcode opcode)

/-- The operand at place `k` of a byte string that follows an opcode. -/
def operandOf (bytes : List Byte) (k : Nat) : Operand :=
  match bytes[k]? with
  | some v => .present v
  | none => .absent k

/-- The mnemonic of an instruction. -/
def Instr.mnemonic : Instr → Mnemonic
  | .hlt => .hlt
  | .ldi _ _ => .ldi
  | .prn _ => .prn
  | .add _ _ => .add
  | .sub _ _ => .sub
  | .mul _ _ => .mul
  | .push _ => .push
  | .pop _ => .pop
  | .call _ => .call
  | .ret => .ret

/-- The width of an instruction in bytes (R71, R79). -/
def Instr.width (i : Instr) : Nat := i.mnemonic.width

/-- Decode of the instruction at the head of a byte string, with the bytes that follow it. -/
def decodeBytes (c : Config) : List Byte → Except DecodeReject (Instr × List Byte)
  | [] => .error .truncated
  | opcode :: rest =>
    match decode c opcode (operandOf rest 0) (operandOf rest 1) with
    | .error r => .error r
    | .ok i => if i.wf then .ok (i, rest.drop (i.width - 1)) else .error .truncated

/-! The encoder. -/

/-- The opcode byte of a handler, from the same table; SUB has one only when it is wired (R76). -/
def opcodeFor : List (Byte × Mnemonic) → Mnemonic → Option Byte
  | [], _ => none
  | (b, m) :: rest, n => if n = m then some b else opcodeFor rest n

/-- The operands of an instruction, in byte order (R71, R73). -/
def Instr.operands : Instr → List Operand
  | .hlt => []
  | .ldi a b => [a, b]
  | .prn a => [a]
  | .add a b => [a, b]
  | .sub a b => [a, b]
  | .mul a b => [a, b]
  | .push a => [a]
  | .pop a => [a]
  | .call a => [a]
  | .ret => []

/-- The bytes of operands that are all present. -/
def operandBytes : List Operand → Option (List Byte)
  | [] => some []
  | .present v :: rest => (operandBytes rest).map (v :: ·)
  | .absent _ :: _ => none

/-- The bytes of an instruction: opcode, operand_a, operand_b (R70, R71, R80). There are none for an
absent operand, nor for SUB when SUB_OPCODE is `none`. -/
def encode (c : Config) (i : Instr) : Option (List Byte) :=
  match opcodeFor (dispatchTable c) i.mnemonic with
  | some opcode => (operandBytes i.operands).map (opcode :: ·)
  | none => none

/-! The assembler spelling (R80). -/

/-- The assembler's name of a register: R0 to R7, and none above (R80). -/
def registerName (v : Byte) : Option String :=
  if v.toNat < 8 then some ("R" ++ toString v.toNat) else none

/-- The spelling of a register operand. -/
def Operand.registerSpelling : Operand → Option String
  | .present v => registerName v
  | .absent _ => none

/-- The spelling of a literal operand: decimal, one of the three forms R80 allows
(DESIGN CHOICE, log entry 20). -/
def Operand.literalSpelling : Operand → Option String
  | .present v => some (toString v.toNat)
  | .absent _ => none

/-- A mnemonic, one operand. -/
def spell1 (name : String) (a : Option String) : Option String :=
  a.map fun x => name ++ " " ++ x

/-- A mnemonic, two operands separated by a comma. -/
def spell2 (name : String) (a b : Option String) : Option String :=
  match a, b with
  | some x, some y => some (name ++ " " ++ x ++ ", " ++ y)
  | _, _ => none

/-- The assembler spelling of an instruction (R80): none when a register operand is above 7. -/
def Instr.assembly : Instr → Option String
  | .hlt => some "HLT"
  | .ldi a b => spell2 "LDI" a.registerSpelling b.literalSpelling
  | .prn a => spell1 "PRN" a.registerSpelling
  | .add a b => spell2 "ADD" a.registerSpelling b.registerSpelling
  | .sub a b => spell2 "SUB" a.registerSpelling b.registerSpelling
  | .mul a b => spell2 "MUL" a.registerSpelling b.registerSpelling
  | .push a => spell1 "PUSH" a.registerSpelling
  | .pop a => spell1 "POP" a.registerSpelling
  | .call a => spell1 "CALL" a.registerSpelling
  | .ret => some "RET"

/-! Words as spec/opcode_table.json numbers them. -/

/-- The three bytes of an instruction whose bits are `w`, byte k in bits 8k+7 to 8k, with every bit
from `nbits` up taken as 0. -/
def wordBytes (nbits w : Nat) : List Byte :=
  [narrow (w % 2 ^ nbits), narrow (w % 2 ^ nbits / 2 ^ 8), narrow (w % 2 ^ nbits / 2 ^ 16)]

/-- The instruction the decoder reads, in the reference configuration, from an instruction whose bits
are `w`. -/
def decodeTableWord (nbits w : Nat) : Option Instr :=
  match decodeBytes referenceConfig (wordBytes nbits w) with
  | .ok (i, _) => some i
  | .error _ => none

end Sys2Proof
end

