-- ==== Sys2Proof/Machine/Fetch.lean ====
section
/-! DEFINITION. The fetch, and the halt on an opcode with no entry (spec/40_engine.md R101, R102, R105). -/

namespace Sys2Proof.Machine

/-- What a fetch delivers: the opcode byte and the two operands. These are transient (R35). -/
structure Fetched where
  opcode : Byte
  a : Operand
  b : Operand
  deriving DecidableEq, Repr

/-- `operandAt` (R102): the operand byte at an address, or what OPERAND_FETCH_OOB says above 255. -/
def operandAt (c : Config) (addr : Nat) (s : State) : Except Raised Operand :=
  if addr ≤ 255 then .ok (.present (s.byteAt addr))
  else match c.operandFetchOob with
    | .faultAlways => .error ⟨.addressOutOfRange, addr⟩
    | .faultIfUsed => .ok (.absent addr)

/-- The fetch: the opcode at pc, then the bytes at pc+1 and pc+2, whatever the opcode (R101, R102). -/
def fetch (c : Config) (s : State) : Except Raised Fetched := do
  let opcode ← memRead s.pc s
  let a ← operandAt c (s.pc + 1) s
  let b ← operandAt c (s.pc + 2) s
  .ok ⟨opcode, a, b⟩

/-- An opcode with no dispatch-table entry halts the engine and reports itself and its address (R105). -/
def haltUnknown (opcode : Byte) (s : State) : State := s.halt (.unknownOpcode opcode s.pc)

/-- Bytes laid at consecutive addresses; those above 255 have no cell. -/
def placeBytes : Nat → List Byte → Memory → Memory
  | _, [], m => m
  | a, v :: rest, m => placeBytes (a + 1) rest (if a ≤ 255 then m.set a v else m)

end Sys2Proof.Machine
end

