-- ==== Sys2Proof/Machine/Engine.lean ====
section
/-! DEFINITION. One step of the engine in a configuration (spec/40_engine.md R100, R107). -/

namespace Sys2Proof.Machine

/-- Whether there is a step: none for a configuration R76 refuses, and none from a Halted or Faulted
state (R41, R100). exec itself does not look at the status (log entry 18). -/
def stepRefusal (c : Config) (s : State) : Option Refusal :=
  if c.valid then
    match s.status with
    | .running => none
    | .halted _ => some .notRunning
    | .faulted _ _ => some .notRunning
  else some .configuration

/-- One step in a configuration: fetch, decode, execute (R107). -/
def stepWith (c : Config) (s : State) : Host.Outcome State Fault Refusal :=
  match stepRefusal c s with
  | some r => .refused r
  | none =>
    match fetch c s with
    | .error e => .next (takeFault e s)
    | .ok f =>
      match decode c f.opcode f.a f.b with
      | .error _ => .next (haltUnknown f.opcode s)
      | .ok i => exec i s

end Sys2Proof.Machine
end

