-- ==== Sys2Proof/Machine/Step.lean ====
section
/-! DEFINITION. The step of the reference configuration, and the placing of an instruction where it
fetches. The step itself is `stepWith` (Sys2Proof/Machine/Engine.lean). -/

namespace Sys2Proof.Machine

/-- One step in the reference configuration (R6). -/
def step (s : State) : Host.Outcome State Fault Refusal := stepWith referenceConfig s

/-- The state with the instruction whose bits are `w` stored where the next step fetches:
bytes 0, 1 and 2 at pc, pc+1 and pc+2. It stands for the host's load (DESIGN CHOICE, log entry 16). -/
def State.withFetchWord (s : State) (nbits w : Nat) : State :=
  { s with mem := placeBytes s.pc (wordBytes nbits w) s.mem }

end Sys2Proof.Machine
end

