-- ==== Sys2Proof/Machine/Ports.lean ====
section
/-! DEFINITION. The block's interface to the host: reset, the LOAD port, the launch, STATUS, OUT and
readback (spec/10_state.md R40 to R45, spec/70_reset_and_hazards.md R230, R231). STEP is `stepWith`
(Sys2Proof/Machine/Engine.lean). -/

namespace Sys2Proof.Machine

/-- The LOAD port (R40): one byte written; an address above 255 fails and the failure is reported to the
loader, not to a run. The host uses it only between reset and the first STEP. -/
def loadPort (addr : Nat) (data : Byte) (s : State) : Except Raised State := memWrite addr data s

/-- Bytes written through the LOAD port at consecutive addresses (R40, R231). -/
def loadBytes : Nat → List Byte → State → Except Raised State
  | _, [], s => .ok s
  | addr, v :: rest, s =>
    match loadPort addr v s with
    | .ok t => loadBytes (addr + 1) rest t
    | .error e => .error e

/-- The memory whose cells below `n` hold a byte function's values. -/
def fillMemory (f : Nat → Byte) : Nat → Memory
  | 0 => []
  | n + 1 => (fillMemory f n).set n (f n)

/-- Reset (R230) with the launch input MEM_INIT, the content of every cell before the load (R6). -/
def resetWith (memInit : Nat → Byte) : State :=
  { State.reset with mem := fillMemory memInit 256 }

/-- Launch (R231): reset, then the program image from address 0. An image of more than 256 bytes has no
launch. -/
def launch (memInit : Nat → Byte) (image : List Byte) : Except Raised State :=
  loadBytes 0 image (resetWith memInit)

/-- The numeric code of a cause (R200; decision D10). -/
def Cause.code : Cause → Nat
  | .addressOutOfRange => 1
  | .registerOutOfRange => 2
  | .unsupportedOperation => 3

/-- The `info` field of STATUS (R200). -/
inductive StatusInfo where
  /-- nothing is recorded: Running, or halted by HLT (DEDUCED, log entry 14) -/
  | nothing
  /-- the offending address, index or operation -/
  | value (n : Nat)
  /-- the unknown opcode and its address -/
  | opcodeAt (opcode : Byte) (pc : Nat)
  deriving DecidableEq, Repr

/-- The three fields of STATUS (R200). -/
structure StatusFields where
  state : Nat
  code : Nat
  info : StatusInfo
  deriving DecidableEq, Repr

/-- The STATUS output (R42, R200). -/
def statusPort (s : State) : StatusFields :=
  match s.status with
  | .running => ⟨0, 0, .nothing⟩
  | .halted .hlt => ⟨1, 0, .nothing⟩
  | .halted (.unknownOpcode opcode pc) => ⟨1, 4, .opcodeAt opcode pc⟩
  | .faulted cause info => ⟨2, cause.code, .value info⟩

/-- The OUT events between two states of a run (R43): what the later output adds to the earlier. -/
def outEvents (s t : State) : List Byte := t.out.drop s.out.length

/-- What readback shows the host (R44). -/
structure ReadbackView where
  x : Vector Byte 8
  pc : Nat
  mem : Memory
  out : List Byte
  deriving DecidableEq, Repr

/-- State readback (R44): only while the status is not Running. -/
def readback (s : State) : Option ReadbackView :=
  match s.status with
  | .running => none
  | .halted _ => some ⟨s.regs, s.pc, s.mem, s.out⟩
  | .faulted _ _ => some ⟨s.regs, s.pc, s.mem, s.out⟩

end Sys2Proof.Machine
end

