-- ==== Sys2Proof/Safety.lean ====
section
/-! DEFINITION. What a run is, what counts as a clean end of one, and the invariant of the machine. -/

namespace Sys2Proof.Machine

/-- The run is over: its status is not Running (R110). -/
def State.ended (s : State) : Bool :=
  match s.status with
  | .running => false
  | .halted _ => true
  | .faulted _ _ => true

/-- The state is not an aborted run (R111). -/
def State.notFaulted (s : State) : Bool :=
  match s.status with
  | .running => true
  | .halted _ => true
  | .faulted _ _ => false

/-- The run loop under fuel (R108, R110): steps repeat while the status is Running. -/
def runLoop (c : Config) : Nat → State → Host.Outcome State Fault Refusal
  | 0, s => .next s
  | fuel + 1, s =>
    if s.ended then .next s
    else match stepWith c s with
      | .next t => runLoop c fuel t
      | .fault r => .fault r
      | .refused r => .refused r

/-- The states a run passes through from `s`. -/
inductive Reachable (c : Config) (s : State) : State → Prop where
  | start : Reachable c s s
  | step (t u : State) (before : Reachable c s t) (one : stepWith c t = .next u) : Reachable c s u

/-- A safe run: no state it passes through is faulted (R111). -/
def SafeRun (c : Config) (s : State) : Prop := ∀ t, Reachable c s t → t.notFaulted = true

/-! Words that claims are stated in. -/

/-- Every byte reads as before. -/
def SameMemory (s t : State) : Prop := ∀ a, t.byteAt a = s.byteAt a

/-- Every byte outside one address reads as before. -/
def SameMemoryBut (x : Nat) (s t : State) : Prop := ∀ a, a ≠ x → t.byteAt a = s.byteAt a

/-- Every register outside a list reads as before. -/
def SameRegsBut (ks : List (Fin 8)) (s t : State) : Prop := ∀ k, k ∉ ks → t.reg k = s.reg k

/-- Everything but the status is as before. -/
def SameButStatus (s t : State) : Prop :=
  (∀ k, t.reg k = s.reg k) ∧ t.pc = s.pc ∧ SameMemory s t ∧ t.out = s.out

/-- The outcome is a next state whose status is Faulted with this cause and info. -/
def EndsFaulted (o : Host.Outcome State Fault Refusal) (cause : Cause) (info : Nat) : Prop :=
  ∃ t, o = .next t ∧ t.status = .faulted cause info

/-- What the status says of the rest of the state: pc addresses the instruction that ended the run, and
the recorded reason is what that instruction's bytes give (R105, R120, R200). -/
def State.statusTrue (c : Config) (s : State) : Prop :=
  match s.status with
  | .running => True
  | .halted .hlt => s.pc ≤ 255 ∧ s.byteAt s.pc = 0x01#8
  | .halted (.unknownOpcode opcode pc) =>
    pc = s.pc ∧ pc ≤ 255 ∧ s.byteAt pc = opcode ∧ lookup (dispatchTable c) opcode = none
  | .faulted .addressOutOfRange a => 256 ≤ a ∧ s.pc ≤ a ∧ a ≤ s.pc + 2
  | .faulted .registerOutOfRange i =>
    8 ≤ i ∧ (i = (s.byteAt (s.pc + 1)).toNat ∨ i = (s.byteAt (s.pc + 2)).toNat)
  | .faulted .unsupportedOperation _ => False

/-- The machine's invariant: memory is canonical, pc is at most 258 (R26), and the status is true of the
rest of the state. -/
def State.Inv (c : Config) (s : State) : Prop :=
  s.mem.wf = true ∧ s.pc ≤ 258 ∧ s.statusTrue c

end Sys2Proof.Machine
end

