-- ==== Sys2Proof/Certificates/Slice0/Obligations.lean ====
section
/-! DEFINITION. The statements about the model: `OBLIGATIONS.json` gives each its title, its rules and
its basis. A docstring names a decision D<n> of spec/92_eei_decisions.md where the clause is the spec's
own choice, and a log entry where it is the model's. The log entry of each decision: D1 and D18 22,
D2 8, D3 and D4 7, D5 6, D6 4, D7 3, D8 2, D9 and D11 11, D12 9, D13 10, D14 1, D19 15, D20 19, D23 17.
`.next t` reads as "the step, or the handler, ends in the state t" (log entry 1), and an operand is
present or absent as R102 has it (log entry 12). -/

open Sys2Proof Sys2Proof.Machine

/-! Reset, launch and the host ports. -/

/-- R25, R232: whatever MEM_INIT is, R0 to R6 are 0, R7 is 0xF4, pc is 0 and the status is Running. -/
def Obligations.ResetRegistersAndEntryPoint : Prop :=
  ∀ memInit : Nat → Byte, ∀ s : State, s = State.reset ∨ s = resetWith memInit →
    (∀ k : Fin 8, k.val ≤ 6 → s.reg k = 0x00#8) ∧ s.reg 7 = 0xF4#8 ∧ s.pc = 0 ∧ s.status = .running

/-- R230, R234 (decision D8): every cell holds MEM_INIT after reset and no output has left. That
`State.reset` is the reset whose MEM_INIT is 0 is the model's choice, log entry 2. -/
def Obligations.ResetMemoryHoldsMemInit : Prop :=
  (∀ (memInit : Nat → Byte) (a : Nat), a < 256 → (resetWith memInit).byteAt a = memInit a) ∧
  (∀ memInit : Nat → Byte, (resetWith memInit).out = []) ∧
  State.reset = resetWith (fun _ => 0x00#8)

/-- R231 (decisions D8, D20): an image of at most 256 bytes has a launch, whose memory is the image and
then MEM_INIT, everything else as after reset; a longer one has none. -/
def Obligations.LaunchPlacesTheImage : Prop :=
  ∀ (memInit : Nat → Byte) (image : List Byte),
    (image.length ≤ 256 → ∃ s, launch memInit image = .ok s ∧
      (∀ a, a < 256 → s.byteAt a = (image[a]?).getD (memInit a)) ∧
      (∀ k, s.reg k = (resetWith memInit).reg k) ∧ s.pc = 0 ∧ s.status = .running ∧ s.out = []) ∧
    (256 < image.length → ∃ e, launch memInit image = .error e)

/-- R40 (decision D20): LOAD writes one byte; above 255 it fails with AddressOutOfRange and there is no
state. -/
def Obligations.LoadPortWritesOneByte : Prop :=
  ∀ (s : State) (addr : Nat) (data : Byte), s.mem.wf = true →
    (addr ≤ 255 → ∃ t, loadPort addr data s = .ok t ∧ t.byteAt addr = data ∧ SameMemoryBut addr s t ∧
      (∀ k, t.reg k = s.reg k) ∧ t.pc = s.pc ∧ t.status = s.status ∧ t.out = s.out) ∧
    (255 < addr → loadPort addr data s = .error ⟨.addressOutOfRange, addr⟩)

/-- R42, R200 (decision D10): the three fields of STATUS. That `info` records nothing while Running and
after HLT is the model's reading, log entry 14. -/
def Obligations.StatusPortFields : Prop :=
  ∀ s : State,
    (s.status = .running → statusPort s = ⟨0, 0, .nothing⟩) ∧
    (s.status = .halted .hlt → statusPort s = ⟨1, 0, .nothing⟩) ∧
    (∀ op pc, s.status = .halted (.unknownOpcode op pc) → statusPort s = ⟨1, 4, .opcodeAt op pc⟩) ∧
    (∀ n, s.status = .faulted .addressOutOfRange n → statusPort s = ⟨2, 1, .value n⟩) ∧
    (∀ n, s.status = .faulted .registerOutOfRange n → statusPort s = ⟨2, 2, .value n⟩) ∧
    (∀ n, s.status = .faulted .unsupportedOperation n → statusPort s = ⟨2, 3, .value n⟩)

/-- R44 (decision D19): readback shows x, pc, mem and out exactly when the status is not Running. -/
def Obligations.ReadbackOnlyWhenOver : Prop :=
  ∀ s : State,
    (s.status = .running → readback s = none) ∧
    (s.status ≠ .running → readback s = some ⟨s.regs, s.pc, s.mem, s.out⟩)

/-! Registers and memory. -/

/-- R8, R20, R23 (decision D3): a register reads back what was written to it, the others keep theirs, and
SP is register 7. -/
def Obligations.RegisterReadsBackWhatWasWritten : Prop :=
  ∀ (s : State) (k j : Fin 8) (v : Byte),
    (s.setReg k v).reg k = v ∧ (j ≠ k → (s.setReg k v).reg j = s.reg j) ∧
    s.sp = s.reg 7 ∧ (s.setSp v).reg 7 = v ∧ (s.setReg 7 v).sp = v

/-- R51: MemRead and MemWrite act on one byte at addresses 0 to 255, fail with AddressOutOfRange above,
and a write mutates nothing but its cell. -/
def Obligations.MemoryPrimitivesActOnOneByte : Prop :=
  ∀ (s : State) (a : Nat) (v : Byte), s.mem.wf = true →
    (a ≤ 255 → memRead a s = .ok (s.byteAt a)) ∧
    (255 < a → memRead a s = .error ⟨.addressOutOfRange, a⟩) ∧
    (a ≤ 255 → ∃ t, memWrite a v s = .ok t ∧ memRead a t = .ok v ∧
      (∀ b, b ≠ a → memRead b t = memRead b s) ∧
      (∀ k, t.reg k = s.reg k) ∧ t.pc = s.pc ∧ t.status = s.status ∧ t.out = s.out) ∧
    (255 < a → memWrite a v s = .error ⟨.addressOutOfRange, a⟩)

/-- Two canonical memories with the same bytes are the same data (log entry 2). -/
def Obligations.CanonicalMemoriesWithSameBytesAreEqual : Prop :=
  ∀ m n : Memory, m.wf = true → n.wf = true → (∀ a, a < 256 → m.get a = n.get a) → m = n

/-! The step. -/

/-- R41, R207 (decision D14), R76 (log entry 5): no step from a Halted or Faulted state, nor in a configuration whose
SUB_OPCODE is an assigned byte. -/
def Obligations.StepRefusedUnlessRunningAndConfigured : Prop :=
  ∀ (c : Config) (s : State),
    (c.valid = true → s.status ≠ .running → stepWith c s = .refused .notRunning) ∧
    (s.status ≠ .running → step s = .refused .notRunning) ∧
    (∀ b, c.subOpcode = some b → b ∈ opcodeTable.map Prod.fst → stepWith c s = .refused .configuration)

/-- R100, R108 (log entry 1): from every Running state, in every admitted configuration, a step has a
next state, the three ends of R100 being states. -/
def Obligations.RunningStepAlwaysAnswers : Prop :=
  ∀ (c : Config) (s : State), c.valid = true → s.status = .running → ∃ t, stepWith c s = .next t

/-- R101: the opcode is the byte at pc; above 255 the step raises AddressOutOfRange(pc), and pc gets
there only by the previous instruction's advance. -/
def Obligations.OpcodeFetchReadsAtPc : Prop :=
  ∀ (c : Config) (s : State), c.valid = true → s.status = .running →
    (255 < s.pc → EndsFaulted (stepWith c s) .addressOutOfRange s.pc) ∧
    (∀ f, fetch c s = .ok f → s.pc ≤ 255 ∧ f.opcode = s.byteAt s.pc) ∧
    (∀ t, s.pc ≤ 255 → stepWith c s = .next t → 255 < t.pc → t.pc = s.pc + 2 ∨ t.pc = s.pc + 3)

/-- R102 (decision D6): both operands are fetched whatever the opcode; above 255 `fault_always` raises,
pc+1 first, and `fault_if_used` delivers an absent byte. -/
def Obligations.OperandFetchFollowsThePolicy : Prop :=
  ∀ (c : Config) (s : State), c.valid = true → s.status = .running → s.pc ≤ 255 →
    (s.pc ≤ 253 → fetch c s =
      .ok ⟨s.byteAt s.pc, .present (s.byteAt (s.pc + 1)), .present (s.byteAt (s.pc + 2))⟩) ∧
    (254 ≤ s.pc → c.operandFetchOob = .faultAlways →
      EndsFaulted (stepWith c s) .addressOutOfRange 256) ∧
    (s.pc = 254 → c.operandFetchOob = .faultIfUsed → fetch c s =
      .ok ⟨s.byteAt 254, .present (s.byteAt 255), .absent 256⟩) ∧
    (s.pc = 255 → c.operandFetchOob = .faultIfUsed → fetch c s =
      .ok ⟨s.byteAt 255, .absent 256, .absent 257⟩)

/-- R103: `use` of a present byte is the byte and of an absent one raises AddressOutOfRange at its
address; a handler that does not name an operand makes the same instruction whatever it is. -/
def Obligations.UseOfAnOperand : Prop :=
  (∀ v, useByte (.present v) = .ok v) ∧
  (∀ addr, useByte (.absent addr) = .error ⟨.addressOutOfRange, addr⟩) ∧
  (∀ a a' b b' : Operand, Mnemonic.instr a b .hlt = Mnemonic.instr a' b' .hlt ∧
    Mnemonic.instr a b .ret = Mnemonic.instr a' b' .ret ∧
    ∀ m ∈ [Mnemonic.prn, .push, .pop, .call], Mnemonic.instr a b m = Mnemonic.instr a b' m)

/-- R104: a found opcode's handler runs with the fetched operands: the step at a Running state is exec of
the instruction the decoder reads, from the fetch and from the three bytes at pc. -/
def Obligations.StepRunsTheDecodedInstruction : Prop :=
  ∀ (c : Config) (s : State) (i : Instr), c.valid = true → s.status = .running →
    (∀ f, fetch c s = .ok f → decode c f.opcode f.a f.b = .ok i → stepWith c s = exec i s) ∧
    (∀ rest, s.pc ≤ 253 →
      decodeBytes c [s.byteAt s.pc, s.byteAt (s.pc + 1), s.byteAt (s.pc + 2)] = .ok (i, rest) →
      stepWith c s = exec i s ∧ (c = referenceConfig → step s = exec i s)) ∧
    (∀ op x y, decode c op x y = .ok i → ∃ row ∈ dispatchTable c, row.1 = op ∧ i = row.2.instr x y)

/-- Log entry 16: an instruction placed by `withFetchWord` where the next step fetches is the one that
step runs. -/
def Obligations.PlacedWordRunsNext : Prop :=
  ∀ (s : State) (nbits w : Nat) (i : Instr), s.mem.wf = true → s.status = .running → s.pc ≤ 253 →
    decodeTableWord nbits w = some i →
    step (s.withFetchWord nbits w) = exec i (s.withFetchWord nbits w) ∧
    (s.withFetchWord nbits w).pc = s.pc ∧ (∀ k, (s.withFetchWord nbits w).reg k = s.reg k)

/-- R105: an opcode with no entry halts with UnknownOpcode(opcode, pc) and changes nothing else. -/
def Obligations.UnknownOpcodeHalts : Prop :=
  ∀ (c : Config) (s : State) (f : Fetched), c.valid = true → s.status = .running →
    fetch c s = .ok f → lookup (dispatchTable c) f.opcode = none →
    ∃ t, stepWith c s = .next t ∧ t.status = .halted (.unknownOpcode (s.byteAt s.pc) s.pc) ∧
      SameButStatus s t

/-- R205 (decisions D6, D11): the first condition in order is the one reported. -/
def Obligations.FirstConditionInOrderIsReported : Prop :=
  ∀ (c : Config) (s : State), c.valid = true → s.status = .running →
    (255 < s.pc → EndsFaulted (stepWith c s) .addressOutOfRange s.pc) ∧
    (∀ x, s.pc ≤ 255 → c.operandFetchOob = .faultAlways → x = s.pc + 1 ∨ x = s.pc + 2 → 255 < x →
      (x = s.pc + 2 → s.pc + 1 ≤ 255) → EndsFaulted (stepWith c s) .addressOutOfRange x) ∧
    (∀ f, fetch c s = .ok f → lookup (dispatchTable c) f.opcode = none → ∃ t,
      stepWith c s = .next t ∧ t.status = .halted (.unknownOpcode f.opcode s.pc)) ∧
    (∀ (p : Nat) (b : Operand), ∀ i ∈ [Instr.ldi (.absent p) b, .add (.absent p) b,
        .sub (.absent p) b, .mul (.absent p) b],
      EndsFaulted (exec i s) .addressOutOfRange p) ∧
    (∀ (r : Byte) (b : Operand), 7 < r.toNat → ∀ i ∈ [Instr.ldi (.present r) b, .add (.present r) b,
        .sub (.present r) b, .mul (.present r) b],
      EndsFaulted (exec i s) .registerOutOfRange r.toNat) ∧
    (∀ (r : Byte) (p : Nat), r.toNat ≤ 7 → ∀ i ∈ [Instr.ldi (.present r) (.absent p),
        .add (.present r) (.absent p), .sub (.present r) (.absent p), .mul (.present r) (.absent p)],
      EndsFaulted (exec i s) .addressOutOfRange p) ∧
    (∀ r q : Byte, r.toNat ≤ 7 → 7 < q.toNat → ∀ i ∈ [Instr.add (.present r) (.present q),
        .sub (.present r) (.present q), .mul (.present r) (.present q)],
      EndsFaulted (exec i s) .registerOutOfRange q.toNat) ∧
    (∀ p : Nat, EndsFaulted (exec (.call (.absent p)) s) .addressOutOfRange p) ∧
    (∀ r : Byte, 7 < r.toNat → EndsFaulted (exec (.call (.present r)) s) .registerOutOfRange r.toNat) ∧
    (∀ r : Byte, r.toNat ≤ 7 → 255 < s.pc + 2 →
      EndsFaulted (exec (.call (.present r)) s) .addressOutOfRange (s.pc + 2))

/-- R206 (decision D9): a step, and a handler, that ends Faulted has changed nothing but the status. -/
def Obligations.FaultChangesNothingButStatus : Prop :=
  ∀ (c : Config) (i : Instr) (s t : State) (cause : Cause) (info : Nat), s.status = .running →
    stepWith c s = .next t ∨ exec i s = .next t → t.status = .faulted cause info → SameButStatus s t

/-- R142, R203: the ALU given another operation raises UnsupportedOperation, and no step ends so. -/
def Obligations.UnsupportedOperationReachedByNoStep : Prop :=
  (∀ (code : Nat) (d src : Fin 8) (s : State),
    aluApply (.other code) d src s = .error ⟨.unsupportedOperation, code⟩) ∧
  ∀ (c : Config) (s t : State) (info : Nat), s.status = .running → stepWith c s = .next t →
    t.status ≠ .faulted .unsupportedOperation info

/-- R202: a register-index operand byte of 8 or more raises RegisterOutOfRange with that byte, unmasked,
in each instruction that names a register. -/
def Obligations.RegisterIndexAbove7Raises : Prop :=
  ∀ (s : State) (r : Byte), 8 ≤ r.toNat →
    (∀ v : Byte, EndsFaulted (exec (.ldi (.present r) (.present v)) s) .registerOutOfRange r.toNat) ∧
    (∀ i ∈ [Instr.prn (.present r), .push (.present r), .pop (.present r), .call (.present r)],
      EndsFaulted (exec i s) .registerOutOfRange r.toNat) ∧
    (∀ q : Byte, ∀ i ∈ [Instr.add (.present r) (.present q), .sub (.present r) (.present q),
        .mul (.present r) (.present q)], EndsFaulted (exec i s) .registerOutOfRange r.toNat) ∧
    (∀ d : Byte, d.toNat ≤ 7 → ∀ i ∈ [Instr.add (.present d) (.present r),
        .sub (.present d) (.present r), .mul (.present d) (.present r)],
      EndsFaulted (exec i s) .registerOutOfRange r.toNat)

/-- R103 (decision D6): PRN, PUSH, POP and CALL whose operand byte is absent raise AddressOutOfRange at
its address. -/
def Obligations.AbsentOnlyOperandRaises : Prop :=
  ∀ (s : State) (p : Nat), ∀ i ∈ [Instr.prn (.absent p), .push (.absent p), .pop (.absent p),
    .call (.absent p)], EndsFaulted (exec i s) .addressOutOfRange p

/-! The opcode map. -/

/-- R75: the nine opcodes, their mnemonics and their widths, in every admitted configuration. -/
def Obligations.OpcodeTableRows : Prop :=
  ∀ c : Config, ∀ row ∈ [(0x01, Mnemonic.hlt, 1), (0x11, .ret, 1), (0x45, .push, 2), (0x46, .pop, 2),
      (0x47, .prn, 2), (0x50, .call, 2), (0x82, .ldi, 3), (0xA0, .add, 3), (0xA2, .mul, 3)],
    lookup (dispatchTable c) (BitVec.ofNat 8 row.1) = some row.2.1 ∧ row.2.1.width = row.2.2

/-- R77: for the nine assigned bytes the width is one more than the top two bits, bit 5 marks ADD and
MUL, and bit 4 marks CALL and RET. -/
def Obligations.OpcodeBitsOfTheAssignedBytes : Prop :=
  ∀ row ∈ opcodeTable, row.2.width = 1 + row.1.toNat / 64 ∧
    (row.1.getLsbD 5 = true ↔ row.2 = .add ∨ row.2 = .mul) ∧
    (row.1.getLsbD 4 = true ↔ row.2 = .call ∨ row.2 = .ret)

/-- R76 (decision D7): SUB is selected by SUB_OPCODE and by nothing else. -/
def Obligations.SubSelectedOnlyByItsParameter : Prop :=
  (∀ (c : Config) (op : Byte), c.subOpcode = none → lookup (dispatchTable c) op ≠ some .sub) ∧
  (∀ (c : Config) (b op : Byte), c.valid = true → c.subOpcode = some b →
    (lookup (dispatchTable c) op = some .sub ↔ op = b)) ∧
  (∀ (c : Config) (b : Byte) (x y : Operand), c.valid = true → c.subOpcode = some b →
    decode c b x y = .ok (.sub x y)) ∧
  Mnemonic.sub.width = 3

/-- R78: 247 byte values are unassigned when SUB_OPCODE is `none`, 246 otherwise. -/
def Obligations.UnassignedByteCount : Prop :=
  ∀ c : Config, c.valid = true →
    ((List.range 256).filter fun n => (lookup (dispatchTable c) (BitVec.ofNat 8 n)).isNone).length =
      if c.subOpcode = none then 247 else 246

/-- Words written out from the encodings of R71, R75 and R80 decode to their instructions. -/
def Obligations.SpecWordsDecode : Prop :=
  decodeTableWord 8 0x01 = some .hlt ∧
  decodeTableWord 24 0x080082 = some (.ldi (.present 0x00#8) (.present 0x08#8)) ∧
  decodeTableWord 16 0x0947 = some (.prn (.present 0x09#8)) ∧
  decodeTableWord 24 0x0100A2 = some (.mul (.present 0x00#8) (.present 0x01#8)) ∧
  decodeTableWord 16 0x0745 = some (.push (.present 0x07#8)) ∧
  decodeTableWord 8 0x11 = some .ret ∧
  decodeTableWord 24 0x0100A1 = none

/-- Decoding the bytes of an instruction gives the instruction and the bytes that follow, for every
instruction that has bytes, whatever they are (R70 to R76). -/
def Obligations.DecodeOfEncodeIsTheInstruction : Prop :=
  ∀ (c : Config) (i : Instr) (bytes rest : List Byte), c.valid = true → encode c i = some bytes →
    decodeBytes c (bytes ++ rest) = .ok (i, rest)

/-- Bytes that decode are the bytes of the instruction they decode to (R74, R79). -/
def Obligations.EncodeOfDecodeIsTheBytes : Prop :=
  ∀ (c : Config) (i : Instr) (bytes rest : List Byte), c.valid = true →
    decodeBytes c bytes = .ok (i, rest) → ∃ head, encode c i = some head ∧ bytes = head ++ rest ∧
      head.length = i.width

/-- An instruction has bytes exactly when its operands are bytes and, for SUB, SUB_OPCODE is set. -/
def Obligations.EncodableInstructions : Prop :=
  ∀ (c : Config) (i : Instr), (∃ bytes, encode c i = some bytes) ↔
    i.wf = true ∧ (i.mnemonic = .sub → c.subOpcode ≠ none)

/-! HLT, LDI and PRN. -/

/-- R120: HLT halts with nothing else changed; at pc 254 and 255 it faults in the fetch under
`fault_always` and halts under `fault_if_used`. -/
def Obligations.HltHaltsAndChangesNothingElse : Prop :=
  (∀ s : State, ∃ t, exec .hlt s = .next t ∧ t.status = .halted .hlt ∧ SameButStatus s t) ∧
  ∀ (c : Config) (s : State), c.valid = true → s.status = .running → s.pc ≤ 255 →
    s.byteAt s.pc = 0x01#8 →
    (s.pc ≤ 253 ∨ c.operandFetchOob = .faultIfUsed → ∃ t, stepWith c s = .next t ∧
      t.status = .halted .hlt ∧ SameButStatus s t) ∧
    (254 ≤ s.pc → c.operandFetchOob = .faultAlways →
      EndsFaulted (stepWith c s) .addressOutOfRange 256)

/-- R121: after HLT no further step exists, and no other instruction ends a run normally. -/
def Obligations.OnlyHltEndsARunNormally : Prop :=
  (∀ (c : Config) (s t : State), exec .hlt s = .next t → ∀ u, stepWith c t ≠ .next u) ∧
  ∀ (i : Instr) (s t : State) (reason : HaltReason), s.status = .running → exec i s = .next t →
    t.status = .halted reason → i = .hlt ∧ reason = .hlt

/-- R122: LDI writes the literal unchanged to any of the eight registers. -/
def Obligations.LdiWritesTheLiteral : Prop :=
  ∀ (s : State) (r v : Byte) (h : r.toNat < 8), ∃ t,
    exec (.ldi (.present r) (.present v)) s = .next t ∧ t.reg ⟨r.toNat, h⟩ = v ∧
    SameRegsBut [⟨r.toNat, h⟩] s t ∧ t.pc = s.pc + 3 ∧ SameMemory s t ∧ t.status = s.status ∧
    t.out = s.out

/-- R124: PRN appends the register's value to the output. -/
def Obligations.PrnEmitsTheRegister : Prop :=
  ∀ (s : State) (r : Byte) (h : r.toNat < 8), ∃ t,
    exec (.prn (.present r)) s = .next t ∧ t.out = s.out ++ [s.reg ⟨r.toNat, h⟩] ∧
    SameRegsBut [] s t ∧ t.pc = s.pc + 2 ∧ SameMemory s t ∧ t.status = s.status

/-- R123: LDI r, v followed immediately by PRN r emits exactly v, for r = 7 too. -/
def Obligations.LdiThenPrnEmitsTheLiteral : Prop :=
  ∀ (c : Config) (s : State) (r v : Byte), c.valid = true → s.status = .running → r.toNat < 8 →
    s.byteAt s.pc = 0x82#8 → s.byteAt (s.pc + 1) = r → s.byteAt (s.pc + 2) = v →
    s.byteAt (s.pc + 3) = 0x47#8 → s.byteAt (s.pc + 4) = r →
    s.pc + 5 ≤ 255 ∨ (c.operandFetchOob = .faultIfUsed ∧ s.pc + 4 ≤ 255) →
    ∃ t u, stepWith c s = .next t ∧ stepWith c t = .next u ∧ u.out = s.out ++ [v] ∧
      u.status = .running ∧ u.pc = s.pc + 5

/-! ADD, SUB and MUL. -/

/-- R140, R141 (decision D2): the ALU reads both values before the one write, reduces modulo 256, and
changes nothing else. -/
def Obligations.AluWritesBackOneRegister : Prop :=
  ∀ (s : State) (d src : Fin 8),
    (∃ t, aluApply .add d src s = .ok t ∧
      (t.reg d).toNat = ((s.reg d).toNat + (s.reg src).toNat) % 256 ∧
      SameRegsBut [d] s t ∧ t.pc = s.pc ∧ SameMemory s t ∧ t.status = s.status ∧ t.out = s.out) ∧
    (∃ t, aluApply .sub d src s = .ok t ∧
      (t.reg d).toNat = ((s.reg d).toNat + (256 - (s.reg src).toNat) % 256) % 256 ∧
      SameRegsBut [d] s t ∧ t.pc = s.pc ∧ SameMemory s t ∧ t.status = s.status ∧ t.out = s.out) ∧
    (∃ t, aluApply .mul d src s = .ok t ∧
      (t.reg d).toNat = (s.reg d).toNat * (s.reg src).toNat % 256 ∧
      SameRegsBut [d] s t ∧ t.pc = s.pc ∧ SameMemory s t ∧ t.status = s.status ∧ t.out = s.out)

/-- R144, R146, R148 (decision D2): the results are those of 8-bit two's-complement addition, subtraction
and multiplication, signed or unsigned. -/
def Obligations.AluLaws : Prop :=
  ∀ a b : Byte,
    aluResult .add a b = .ok (a + b) ∧ aluResult .add a b = aluResult .add b a ∧
    aluResult .add a 0x00#8 = .ok a ∧
    aluResult .add a b = .ok (BitVec.ofInt 8 (a.toInt + b.toInt)) ∧
    aluResult .sub a b = .ok (a - b) ∧
    aluResult .sub a b = .ok (BitVec.ofInt 8 ((a.toNat : Int) - (b.toNat : Int))) ∧
    aluResult .sub a 0x00#8 = .ok a ∧ aluResult .sub a a = .ok 0x00#8 ∧
    aluResult .mul a b = .ok (a * b) ∧
    aluResult .mul a b = .ok (BitVec.ofInt 8 (a.toInt * b.toInt)) ∧
    aluResult .mul a 0x01#8 = .ok a ∧ aluResult .mul a 0x00#8 = .ok 0x00#8

/-- R143 (decision D2): ADD writes the sum modulo 256 to its destination. -/
def Obligations.AddWritesTheSumModulo256 : Prop :=
  ∀ (s : State) (d q : Byte) (hd : d.toNat < 8) (hq : q.toNat < 8), ∃ t,
    exec (.add (.present d) (.present q)) s = .next t ∧
    (t.reg ⟨d.toNat, hd⟩).toNat =
      ((s.reg ⟨d.toNat, hd⟩).toNat + (s.reg ⟨q.toNat, hq⟩).toNat) % 256 ∧
    SameRegsBut [⟨d.toNat, hd⟩] s t ∧ t.pc = s.pc + 3 ∧ SameMemory s t ∧ t.status = s.status ∧
    t.out = s.out

/-- R145 (decisions D2, D7): SUB writes the difference modulo 256, as the sum with the negation. -/
def Obligations.SubWritesTheDifferenceModulo256 : Prop :=
  ∀ (s : State) (d q : Byte) (hd : d.toNat < 8) (hq : q.toNat < 8), ∃ t,
    exec (.sub (.present d) (.present q)) s = .next t ∧
    (t.reg ⟨d.toNat, hd⟩).toNat =
      ((s.reg ⟨d.toNat, hd⟩).toNat + (256 - (s.reg ⟨q.toNat, hq⟩).toNat) % 256) % 256 ∧
    SameRegsBut [⟨d.toNat, hd⟩] s t ∧ t.pc = s.pc + 3 ∧ SameMemory s t ∧ t.status = s.status ∧
    t.out = s.out

/-- R147 (decision D2): MUL writes the product modulo 256. -/
def Obligations.MulWritesTheProductModulo256 : Prop :=
  ∀ (s : State) (d q : Byte) (hd : d.toNat < 8) (hq : q.toNat < 8), ∃ t,
    exec (.mul (.present d) (.present q)) s = .next t ∧
    (t.reg ⟨d.toNat, hd⟩).toNat =
      (s.reg ⟨d.toNat, hd⟩).toNat * (s.reg ⟨q.toNat, hq⟩).toNat % 256 ∧
    SameRegsBut [⟨d.toNat, hd⟩] s t ∧ t.pc = s.pc + 3 ∧ SameMemory s t ∧ t.status = s.status ∧
    t.out = s.out

/-! PUSH, POP, CALL and RET. -/

/-- R163 (decisions D4, D12): PUSH decrements SP modulo 256 and stores the register, read after the
decrement, at the new SP. -/
def Obligations.PushStoresBelowTheStackTop : Prop :=
  ∀ (s : State) (r : Byte) (h : r.toNat < 8), s.mem.wf = true → ∃ t,
    exec (.push (.present r)) s = .next t ∧
    t.sp.toNat = (s.sp.toNat + 255) % 256 ∧ SameRegsBut [7] s t ∧
    t.byteAt (decSp s).sp.toNat = (decSp s).reg ⟨r.toNat, h⟩ ∧ (decSp s).sp = t.sp ∧
    (r.toNat ≠ 7 → t.byteAt t.sp.toNat = s.reg ⟨r.toNat, h⟩) ∧
    (r.toNat = 7 → t.byteAt t.sp.toNat = t.sp) ∧
    SameMemoryBut (decSp s).sp.toNat s t ∧ t.pc = s.pc + 2 ∧ t.status = s.status ∧ t.out = s.out

/-- R166, R165 (decisions D4, D12): POP reads the byte at SP into the register, then increments SP modulo
256, reading it after the write; memory is unchanged. -/
def Obligations.PopLoadsTheStackTop : Prop :=
  ∀ (s : State) (r : Byte) (h : r.toNat < 8), ∃ t,
    exec (.pop (.present r)) s = .next t ∧
    (r.toNat ≠ 7 → t.reg ⟨r.toNat, h⟩ = s.byteAt s.sp.toNat ∧
      t.sp.toNat = (s.sp.toNat + 1) % 256) ∧
    (r.toNat = 7 → t.sp.toNat = ((s.byteAt s.sp.toNat).toNat + 1) % 256) ∧
    SameRegsBut [⟨r.toNat, h⟩, 7] s t ∧ SameMemory s t ∧ t.pc = s.pc + 2 ∧ t.status = s.status ∧
    t.out = s.out

/-- R167 (decision D12): PUSH r then POP r leaves every register as it was, for r = 7 too, and the cell
below the stack top holds the pushed byte. -/
def Obligations.PushThenPopRestoresRegisters : Prop :=
  ∀ (s : State) (r : Byte) (h : r.toNat < 8), s.mem.wf = true → ∃ t u,
    exec (.push (.present r)) s = .next t ∧ exec (.pop (.present r)) t = .next u ∧
    (∀ k, u.reg k = s.reg k) ∧ u.byteAt (s.sp - 1#8).toNat = (decSp s).reg ⟨r.toNat, h⟩ ∧
    SameMemoryBut (s.sp - 1#8).toNat s u

/-- R161 (decision D4): SP wraps at both ends, and no stack access raises AddressOutOfRange. -/
def Obligations.StackPointerWrapsAndNeverFaults : Prop :=
  (∀ s : State, s.sp = 0x00#8 → (decSp s).sp = 0xFF#8) ∧
  (∀ s : State, s.sp = 0xFF#8 → (incSp s).sp = 0x00#8) ∧
  (∀ (s : State) (v : Byte) (e : Raised), storeTop v s ≠ .error e ∧ loadTop s ≠ .error e) ∧
  ∀ (s t : State) (r : Byte) (info : Nat), s.status = .running →
    exec (.push (.present r)) s = .next t ∨ exec (.pop (.present r)) s = .next t ∨
      exec .ret s = .next t → t.status ≠ .faulted .addressOutOfRange info

/-- R182 (decisions D4, D12): CALL pushes pc + 2 and jumps to the register, read after the push. -/
def Obligations.CallPushesTheReturnAddressAndJumps : Prop :=
  ∀ (s : State) (r : Byte) (h : r.toNat < 8), s.mem.wf = true → s.pc + 2 ≤ 255 → ∃ t,
    exec (.call (.present r)) s = .next t ∧
    t.sp.toNat = (s.sp.toNat + 255) % 256 ∧ SameRegsBut [7] s t ∧ (decSp s).sp = t.sp ∧
    (t.byteAt (decSp s).sp.toNat).toNat = s.pc + 2 ∧ SameMemoryBut (decSp s).sp.toNat s t ∧
    (r.toNat ≠ 7 → t.pc = (s.reg ⟨r.toNat, h⟩).toNat) ∧ (r.toNat = 7 → t.pc = t.sp.toNat) ∧
    t.status = s.status ∧ t.out = s.out

/-- R185 (decision D4): RET jumps to the byte at SP and increments SP modulo 256. -/
def Obligations.RetPopsThePc : Prop :=
  ∀ s : State, ∃ t, exec .ret s = .next t ∧ t.pc = (s.byteAt s.sp.toNat).toNat ∧
    t.sp.toNat = (s.sp.toNat + 1) % 256 ∧ SameRegsBut [7] s t ∧ SameMemory s t ∧
    t.status = s.status ∧ t.out = s.out

/-- R184: after a CALL at p, a RET with SP as the CALL left it and p + 2 still at SP returns to p + 2 with
SP as before the CALL, wrapping or not (decision D4, log entry 7). -/
def Obligations.RetReturnsAfterTheCall : Prop :=
  ∀ (s t u : State) (r : Byte), r.toNat < 8 → s.pc + 2 ≤ 255 →
    exec (.call (.present r)) s = .next t → u.sp = t.sp → (u.byteAt u.sp.toNat).toNat = s.pc + 2 →
    ∃ v, exec .ret u = .next v ∧ v.pc = s.pc + 2 ∧ v.sp = s.sp

/-! Rules over all instructions. -/

/-- R31: only PRN writes the output, one byte per execution, and no instruction reads it. -/
def Obligations.OnlyPrnTouchesTheOutput : Prop :=
  State.reset.out = [] ∧
  (∀ (i : Instr) (s t : State), exec i s = .next t → i.mnemonic ≠ .prn → t.out = s.out) ∧
  (∀ (s t : State) (a : Operand), s.status = .running → exec (.prn a) s = .next t →
    t.status = .running → ∃ v, t.out = s.out ++ [v]) ∧
  ∀ (i : Instr) (s t : State) (other : List Byte), exec i s = .next t →
    ∃ u, exec i { s with out := other } = .next u ∧ u.regs = t.regs ∧ u.pc = t.pc ∧ u.mem = t.mem ∧
      u.status = t.status

/-- R43: the OUT events of a step are the register PRN names, and none for any other instruction. -/
def Obligations.OutEventsOfAStep : Prop :=
  (∀ (s : State) (r : Byte) (h : r.toNat < 8), ∃ t, exec (.prn (.present r)) s = .next t ∧
    outEvents s t = [s.reg ⟨r.toNat, h⟩]) ∧
  ∀ (i : Instr) (s t : State), exec i s = .next t → i.mnemonic ≠ .prn → outEvents s t = []

/-- R52: only PUSH and CALL change memory, at SP after the decrement. -/
def Obligations.OnlyPushAndCallWriteMemory : Prop :=
  ∀ (i : Instr) (s t : State), exec i s = .next t →
    (i.mnemonic ≠ .push → i.mnemonic ≠ .call → t.mem = s.mem) ∧
    (s.mem.wf = true → SameMemoryBut (decSp s).sp.toNat s t)

/-- R21: the registers an instruction writes are its destination and, for the stack instructions, SP. -/
def Obligations.RegistersAnInstructionWrites : Prop :=
  ∀ (i : Instr) (s t : State) (k : Fin 8), exec i s = .next t → t.reg k ≠ s.reg k →
    match i with
    | .ldi a _ | .add a _ | .sub a _ | .mul a _ => a = .present (BitVec.ofNat 8 k.val)
    | .pop a => a = .present (BitVec.ofNat 8 k.val) ∨ k = 7
    | .push _ | .call _ | .ret => k = 7
    | .hlt | .prn _ => False

/-- R27 (decision D9): how each instruction that does not fault leaves pc. CALL's register is read after
the push (decision D12, log entry 9). -/
def Obligations.NextPcOfEachInstruction : Prop :=
  ∀ (i : Instr) (s t : State), s.status = .running → exec i s = .next t →
    (t.status ≠ .running → t.pc = s.pc) ∧
    (t.status = .running → match i with
      | .hlt => False
      | .ldi _ _ | .add _ _ | .sub _ _ | .mul _ _ => t.pc = s.pc + 3
      | .prn _ | .push _ | .pop _ => t.pc = s.pc + 2
      | .call a => ∃ k : Fin 8, a = .present (BitVec.ofNat 8 k.val) ∧ t.pc = (t.reg k).toNat
      | .ret => t.pc = (s.byteAt s.sp.toNat).toNat)

/-- R180: only CALL and RET write pc other than by advancing it, and their target is a byte: the value of
the register CALL's operand names, the memory byte at SP for RET. For CALL R7 that value is SP as the push
left it (decisions D4 and D12, log entries 7 and 9). -/
def Obligations.OnlyCallAndRetSetPc : Prop :=
  ∀ (i : Instr) (s t : State), s.status = .running → exec i s = .next t →
    (i.mnemonic ≠ .call → i.mnemonic ≠ .ret → t.pc = s.pc ∨ t.pc = s.pc + i.width) ∧
    (∀ a, i = .call a → t.status = .running → t.pc ≤ 255 ∧
      ∃ k : Fin 8, a = .present (BitVec.ofNat 8 k.val) ∧ t.pc = (t.reg k).toNat ∧
        (k ≠ 7 → t.pc = (s.reg k).toNat)) ∧
    (i = .ret → t.pc ≤ 255 ∧ t.pc = (s.byteAt s.sp.toNat).toNat)

/-- R61, R163, R182: the byte a PUSH or a CALL stored is what a later fetch from its address delivers, as
an opcode or as either operand. The address is the decremented SP, which wraps (decision D4, log entry 7),
and PUSH stores its register as read after the decrement (decision D12, log entry 9). -/
def Obligations.FetchSeesTheStoredByte : Prop :=
  ∀ (c : Config) (s t : State) (i : Instr) (r x : Byte) (h : r.toNat < 8) (f : Fetched) (n : Nat),
    s.mem.wf = true →
    (i = .push (.present r) ∧ x = (decSp s).reg ⟨r.toNat, h⟩) ∨
      (i = .call (.present r) ∧ x.toNat = s.pc + 2) →
    exec i s = .next t → fetch c (t.setPc n) = .ok f →
    (n = (decSp s).sp.toNat → f.opcode = x) ∧
    (n + 1 = (decSp s).sp.toNat → f.a = .present x) ∧
    (n + 2 = (decSp s).sp.toNat → f.b = .present x)

/-- R62: a PUSH or a CALL, the instructions that store, whose store falls on one of its own three fetched
bytes acts on the register its operand byte named when it was fetched: PUSH stores that register, and CALL
goes to its value, not to the register the stored pc + 2 would name. At pc = 254 PUSH runs under
`fault_if_used` (decision D6, log entry 4). The register is read after the decrement of SP, which wraps
(decisions D4 and D12, log entries 7 and 9). -/
def Obligations.StepUsesTheOperandsItFetched : Prop :=
  ∀ (c : Config) (s : State) (r : Byte) (h : r.toNat < 8), c.valid = true → s.status = .running →
    s.mem.wf = true → s.byteAt (s.pc + 1) = r →
    (decSp s).sp.toNat ∈ [s.pc, s.pc + 1, s.pc + 2] →
    (s.byteAt s.pc = 0x45#8 →
      s.pc ≤ 253 ∨ (s.pc = 254 ∧ c.operandFetchOob = .faultIfUsed) →
      ∃ t, stepWith c s = .next t ∧
        t.byteAt (decSp s).sp.toNat = (decSp s).reg ⟨r.toNat, h⟩ ∧ t.pc = s.pc + 2 ∧
        t.status = .running) ∧
    (s.byteAt s.pc = 0x50#8 → s.pc ≤ 253 →
      ∃ t, stepWith c s = .next t ∧ (t.byteAt (decSp s).sp.toNat).toNat = s.pc + 2 ∧
        t.pc = ((decSp s).reg ⟨r.toNat, h⟩).toNat ∧ t.status = .running)

/-! The invariant. -/

/-- The state after reset and after every launch meets the invariant, in every configuration. -/
def Obligations.LaunchMeetsTheInvariant : Prop :=
  (∀ c : Config, State.reset.Inv c) ∧
  ∀ (c : Config) (memInit : Nat → Byte) (image : List Byte) (s : State),
    launch memInit image = .ok s → s.Inv c

/-- R26, R200: every step keeps the invariant: memory canonical, pc at most 258, and the status true of
the instruction at pc. -/
def Obligations.StepKeepsTheInvariant : Prop :=
  (∀ (c : Config) (s t : State), s.Inv c → stepWith c s = .next t → t.Inv c) ∧
  ∀ s t : State, s.Inv referenceConfig → step s = .next t → t.Inv referenceConfig

/-- Every state of every run from every launch meets the invariant. -/
def Obligations.EveryRunMeetsTheInvariant : Prop :=
  ∀ (c : Config) (memInit : Nat → Byte) (image : List Byte) (s t : State),
    launch memInit image = .ok s → Reachable c s t → t.Inv c

/-- R108, R110: the run loop with no fuel stays; with fuel, from a Running state it goes on from the
step's next state, and from an ended state it answers that state. So in an admitted configuration it
answers, under any fuel, a state the run reaches, and it answers every ended state the run reaches, at some
fuel and at every larger one. -/
def Obligations.RunLoopEndsAtTheFirstEndedState : Prop :=
  ∀ (c : Config) (s : State),
    runLoop c 0 s = .next s ∧
    (∀ (fuel : Nat) (t : State), s.status = .running → stepWith c s = .next t →
      runLoop c (fuel + 1) s = runLoop c fuel t) ∧
    (∀ fuel, s.status ≠ .running → runLoop c fuel s = .next s) ∧
    (c.valid = true → ∀ fuel, ∃ t, runLoop c fuel s = .next t ∧ Reachable c s t) ∧
    (∀ t, Reachable c s t → t.status ≠ .running →
      ∃ fuel, ∀ more, fuel ≤ more → runLoop c more s = .next t)
end

