-- ==== Sys2Proof/Laws/Memory.lean ====
section
/-! SUPPORT. The laws of the memory: a read after a write, and that a write keeps the canonical form. -/

namespace Sys2Proof.Machine

theorem wfFrom_cons (lo a : Nat) (v : Byte) (m : Memory) :
    Memory.wfFrom lo ((a, v) :: m) = true ↔
      lo ≤ a ∧ a < 256 ∧ v ≠ unlistedByte ∧ Memory.wfFrom (a + 1) m = true := by
  simp [Memory.wfFrom, and_assoc]

theorem wfFrom_mono {lo lo' : Nat} {m : Memory} (h : Memory.wfFrom lo m = true) (le : lo' ≤ lo) :
    Memory.wfFrom lo' m = true := by
  cases m with
  | nil => rfl
  | cons c rest =>
    obtain ⟨a, v⟩ := c
    rw [wfFrom_cons] at h ⊢
    exact ⟨le.trans h.1, h.2⟩

/-- Below the first address it may list, a canonical memory reads as unlisted. -/
theorem get_of_lt {lo : Nat} {m : Memory} (h : Memory.wfFrom lo m = true) {x : Nat} (lt : x < lo) :
    m.get x = unlistedByte := by
  induction m generalizing lo with
  | nil => rfl
  | cons c rest ih =>
    obtain ⟨a, v⟩ := c
    rw [wfFrom_cons] at h
    have ne : x ≠ a := by omega
    simpa [Memory.get, ne] using ih h.2.2.2 (by omega)

theorem get_consCell {a : Nat} {v : Byte} {m : Memory} (h : Memory.wfFrom (a + 1) m = true) (x : Nat) :
    Memory.get (consCell a v m) x = if x = a then v else m.get x := by
  unfold consCell
  split
  · next e =>
    split
    · next e' => rw [e, e']; exact get_of_lt h (Nat.lt_succ_self a)
    · rfl
  · rfl

theorem wfFrom_consCell {lo a : Nat} {v : Byte} {m : Memory} (le : lo ≤ a) (lt : a < 256)
    (h : Memory.wfFrom (a + 1) m = true) : Memory.wfFrom lo (consCell a v m) = true := by
  unfold consCell
  split
  · exact wfFrom_mono h (by omega)
  · next ne => exact (wfFrom_cons ..).2 ⟨le, lt, ne, h⟩

theorem get_set_from {lo : Nat} {m : Memory} (h : Memory.wfFrom lo m = true) (x : Nat) (v : Byte)
    (y : Nat) : (m.set x v).get y = if y = x then v else m.get y := by
  induction m generalizing lo with
  | nil => exact get_consCell (m := []) rfl y
  | cons c rest ih =>
    obtain ⟨a, w⟩ := c
    have hc := (wfFrom_cons ..).1 h
    unfold Memory.set
    split
    · next lt => exact get_consCell ((wfFrom_cons ..).2 ⟨lt, hc.2⟩) y
    · split
      · next e =>
        subst e
        rw [get_consCell hc.2.2.2]
        simp only [Memory.get]
        split <;> rfl
      · next ne =>
        simp only [Memory.get, ih hc.2.2.2]
        split
        · next e => rw [if_neg (by omega)]
        · rfl

theorem set_wfFrom {lo : Nat} {m : Memory} (h : Memory.wfFrom lo m = true) {x : Nat} (v : Byte)
    (le : lo ≤ x) (lt : x < 256) : Memory.wfFrom lo (m.set x v) = true := by
  induction m generalizing lo with
  | nil => exact wfFrom_consCell le lt rfl
  | cons c rest ih =>
    obtain ⟨a, w⟩ := c
    have hc := (wfFrom_cons ..).1 h
    unfold Memory.set
    split
    · next lt' => exact wfFrom_consCell le lt ((wfFrom_cons ..).2 ⟨lt', hc.2⟩)
    · split
      · exact wfFrom_consCell hc.1 hc.2.1 hc.2.2.2
      · exact (wfFrom_cons ..).2 ⟨hc.1, hc.2.1, hc.2.2.1, ih hc.2.2.2 (by omega)⟩

/-- A read after a write: the byte written at that address, every other byte as before (R55). -/
theorem get_set {m : Memory} (h : m.wf = true) (x : Nat) (v : Byte) (y : Nat) :
    (m.set x v).get y = if y = x then v else m.get y :=
  get_set_from h x v y

/-- A write at an address of the memory keeps the canonical form. -/
theorem set_wf {m : Memory} (h : m.wf = true) {x : Nat} (v : Byte) (lt : x < 256) :
    (m.set x v).wf = true :=
  set_wfFrom h v (Nat.zero_le x) lt

theorem nil_wf : Memory.wf [] = true := rfl

end Sys2Proof.Machine
end

