-- ==== Sys2Proof/Laws/State.lean ====
section
/-! SUPPORT. What each named update of State does to each field, one lemma per field. -/

namespace Sys2Proof.Machine

variable (s : State)

/-! Registers. -/

@[simp] theorem setReg_reg (k j : Fin 8) (v : Byte) :
    (s.setReg k v).reg j = if j = k then v else s.reg j := by
  simp only [State.setReg, State.reg, Vector.getElem_set, Fin.ext_iff, eq_comm]

@[simp] theorem setReg_pc (k : Fin 8) (v : Byte) : (s.setReg k v).pc = s.pc := rfl
@[simp] theorem setReg_mem (k : Fin 8) (v : Byte) : (s.setReg k v).mem = s.mem := rfl
@[simp] theorem setReg_status (k : Fin 8) (v : Byte) : (s.setReg k v).status = s.status := rfl
@[simp] theorem setReg_out (k : Fin 8) (v : Byte) : (s.setReg k v).out = s.out := rfl

/-- SP is spelled as register 7 (R23). -/
@[simp] theorem sp_eq_reg : s.sp = s.reg 7 := rfl

@[simp] theorem setSp_eq_setReg (v : Byte) : s.setSp v = s.setReg 7 v := rfl

@[simp] theorem decSp_eq_setReg : decSp s = s.setReg 7 (s.reg 7 - 1#8) := rfl

@[simp] theorem incSp_eq_setReg : incSp s = s.setReg 7 (s.reg 7 + 1#8) := rfl

/-- Two states are equal when their registers, one by one, and their other fields are. -/
theorem state_ext {t : State} (regs : ∀ k, s.reg k = t.reg k) (pc : s.pc = t.pc) (mem : s.mem = t.mem)
    (status : s.status = t.status) (out : s.out = t.out) : s = t := by
  obtain ⟨r, p, m, st, o⟩ := s
  obtain ⟨r', p', m', st', o'⟩ := t
  have hr : r = r' := by
    apply Vector.ext
    intro i lt
    exact regs ⟨i, lt⟩
  simp_all

/-! The program counter. -/

@[simp] theorem setPc_reg (n : Nat) (k : Fin 8) : (s.setPc n).reg k = s.reg k := rfl
@[simp] theorem setPc_pc (n : Nat) : (s.setPc n).pc = n := rfl
@[simp] theorem setPc_mem (n : Nat) : (s.setPc n).mem = s.mem := rfl
@[simp] theorem setPc_status (n : Nat) : (s.setPc n).status = s.status := rfl
@[simp] theorem setPc_out (n : Nat) : (s.setPc n).out = s.out := rfl

@[simp] theorem advance_reg (n : Nat) (k : Fin 8) : (s.advance n).reg k = s.reg k := rfl
@[simp] theorem advance_pc (n : Nat) : (s.advance n).pc = s.pc + n := rfl
@[simp] theorem advance_mem (n : Nat) : (s.advance n).mem = s.mem := rfl
@[simp] theorem advance_status (n : Nat) : (s.advance n).status = s.status := rfl
@[simp] theorem advance_out (n : Nat) : (s.advance n).out = s.out := rfl

/-! The output. -/

@[simp] theorem emit_reg (v : Byte) (k : Fin 8) : (s.emit v).reg k = s.reg k := rfl
@[simp] theorem emit_pc (v : Byte) : (s.emit v).pc = s.pc := rfl
@[simp] theorem emit_mem (v : Byte) : (s.emit v).mem = s.mem := rfl
@[simp] theorem emit_status (v : Byte) : (s.emit v).status = s.status := rfl
@[simp] theorem emit_out (v : Byte) : (s.emit v).out = s.out ++ [v] := rfl

/-! Memory. -/

@[simp] theorem setByte_reg (a : Nat) (v : Byte) (k : Fin 8) : (s.setByte a v).reg k = s.reg k := rfl
@[simp] theorem setByte_pc (a : Nat) (v : Byte) : (s.setByte a v).pc = s.pc := rfl
@[simp] theorem setByte_mem (a : Nat) (v : Byte) : (s.setByte a v).mem = s.mem.set a v := rfl
@[simp] theorem setByte_status (a : Nat) (v : Byte) : (s.setByte a v).status = s.status := rfl
@[simp] theorem setByte_out (a : Nat) (v : Byte) : (s.setByte a v).out = s.out := rfl

/-- The byte at an address depends on memory alone. -/
theorem byteAt_congr {t : State} (h : s.mem = t.mem) (a : Nat) : s.byteAt a = t.byteAt a := by
  simp only [State.byteAt, h]

/-! Halt and fatal condition. -/

@[simp] theorem halt_reg (r : HaltReason) (k : Fin 8) : (s.halt r).reg k = s.reg k := rfl
@[simp] theorem halt_pc (r : HaltReason) : (s.halt r).pc = s.pc := rfl
@[simp] theorem halt_mem (r : HaltReason) : (s.halt r).mem = s.mem := rfl
@[simp] theorem halt_status (r : HaltReason) : (s.halt r).status = .halted r := rfl
@[simp] theorem halt_out (r : HaltReason) : (s.halt r).out = s.out := rfl

@[simp] theorem takeFault_reg (e : Raised) (k : Fin 8) : (takeFault e s).reg k = s.reg k := rfl
@[simp] theorem takeFault_pc (e : Raised) : (takeFault e s).pc = s.pc := rfl
@[simp] theorem takeFault_mem (e : Raised) : (takeFault e s).mem = s.mem := rfl
@[simp] theorem takeFault_status (e : Raised) :
    (takeFault e s).status = .faulted e.cause e.info := rfl
@[simp] theorem takeFault_out (e : Raised) : (takeFault e s).out = s.out := rfl

end Sys2Proof.Machine
end

