-- ==== Sys2Proof/Laws/Ops.lean ====
section
/-! SUPPORT. What each shared operation can do, said once. -/

namespace Sys2Proof.Machine

/-! Operands (R24, R103). -/

@[simp] theorem useByte_present (v : Byte) : useByte (.present v) = .ok v := rfl

@[simp] theorem useByte_absent (addr : Nat) :
    useByte (.absent addr) = .error ⟨.addressOutOfRange, addr⟩ := rfl

theorem checkReg_lt {i : Byte} (h : i.toNat < 8) : checkReg i = .ok ⟨i.toNat, h⟩ := dif_pos h

theorem checkReg_ge {i : Byte} (h : 8 ≤ i.toNat) :
    checkReg i = .error ⟨.registerOutOfRange, i.toNat⟩ := dif_neg (by omega)

theorem useReg_lt {v : Byte} (h : v.toNat < 8) : useReg (.present v) = .ok ⟨v.toNat, h⟩ := checkReg_lt h

theorem useReg_ge {v : Byte} (h : 8 ≤ v.toNat) :
    useReg (.present v) = .error ⟨.registerOutOfRange, v.toNat⟩ := checkReg_ge h

@[simp] theorem useReg_absent (addr : Nat) :
    useReg (.absent addr) = .error ⟨.addressOutOfRange, addr⟩ := rfl

/-- Everything a register operand can do: name a register, raise on its index, or raise because its byte
is absent. -/
theorem useReg_cases (o : Operand) :
    (∃ k : Fin 8, o = .present (BitVec.ofNat 8 k.val) ∧ useReg o = .ok k) ∨
    (∃ v : Byte, o = .present v ∧ 8 ≤ v.toNat ∧ useReg o = .error ⟨.registerOutOfRange, v.toNat⟩) ∨
    (∃ addr, o = .absent addr ∧ useReg o = .error ⟨.addressOutOfRange, addr⟩) := by
  cases o with
  | absent addr => exact .inr (.inr ⟨addr, rfl, rfl⟩)
  | present v =>
    by_cases h : v.toNat < 8
    · exact .inl ⟨⟨v.toNat, h⟩, by simp, useReg_lt h⟩
    · exact .inr (.inl ⟨v, rfl, Nat.le_of_not_lt h, useReg_ge (Nat.le_of_not_lt h)⟩)

/-! Checked memory (R51). -/

theorem checkAddr_le {a : Nat} (h : a ≤ 255) : checkAddr a = .ok () := if_pos h

theorem checkAddr_gt {a : Nat} (h : 255 < a) : checkAddr a = .error ⟨.addressOutOfRange, a⟩ :=
  if_neg (by omega)

theorem memRead_le {a : Nat} (h : a ≤ 255) (s : State) : memRead a s = .ok (s.byteAt a) := by
  simp [memRead, checkAddr_le h]

theorem memRead_gt {a : Nat} (h : 255 < a) (s : State) :
    memRead a s = .error ⟨.addressOutOfRange, a⟩ := by
  simp [memRead, checkAddr_gt h]

theorem memWrite_le {a : Nat} (h : a ≤ 255) (v : Byte) (s : State) :
    memWrite a v s = .ok (s.setByte a v) := by
  simp [memWrite, checkAddr_le h]

theorem memWrite_gt {a : Nat} (h : 255 < a) (v : Byte) (s : State) :
    memWrite a v s = .error ⟨.addressOutOfRange, a⟩ := by
  simp [memWrite, checkAddr_gt h]

/-- Whatever it answers, a checked write keeps the canonical form. -/
theorem memWrite_wf {a : Nat} {v : Byte} {s t : State} (h : memWrite a v s = .ok t)
    (wf : s.mem.wf = true) : t.mem.wf = true := by
  by_cases le : a ≤ 255
  · rw [memWrite_le le] at h
    cases h
    exact set_wf wf v (by omega)
  · rw [memWrite_gt (by omega)] at h
    cases h

/-- The byte at an address after a byte is written. -/
theorem setByte_byteAt {s : State} (wf : s.mem.wf = true) (x : Nat) (v : Byte) (y : Nat) :
    (s.setByte x v).byteAt y = if y = x then v else s.byteAt y :=
  get_set wf x v y

/-- A byte is an address of the memory (R161). -/
theorem byte_le (v : Byte) : v.toNat ≤ 255 := Nat.le_of_lt_succ v.isLt

/-! The stack (R161 to R164). -/

@[simp] theorem storeTop_eq (v : Byte) (s : State) :
    storeTop v s = .ok (s.setByte (s.reg 7).toNat v) :=
  memWrite_le (byte_le _) v s

@[simp] theorem loadTop_eq (s : State) : loadTop s = .ok (s.byteAt (s.reg 7).toNat) :=
  memRead_le (byte_le _) s

theorem returnAddress_le {pc : Nat} (h : pc + 2 ≤ 255) :
    returnAddress pc = .ok (narrow (pc + 2)) := by
  simp [returnAddress, checkAddr_le h]

theorem returnAddress_gt {pc : Nat} (h : 255 < pc + 2) :
    returnAddress pc = .error ⟨.addressOutOfRange, pc + 2⟩ := by
  simp [returnAddress, checkAddr_gt h]

/-! The ALU (R140). -/

/-- Everything the ALU can do: write one register, or raise on an operation it does not support. -/
theorem aluApply_cases (op : AluOp) (d src : Fin 8) (s : State) :
    (∃ v, aluResult op (s.reg d) (s.reg src) = .ok v ∧ aluApply op d src s = .ok (s.setReg d v)) ∨
    (∃ code, op = .other code ∧ aluApply op d src s = .error ⟨.unsupportedOperation, code⟩) := by
  cases op with
  | add => exact .inl ⟨_, rfl, rfl⟩
  | sub => exact .inl ⟨_, rfl, rfl⟩
  | mul => exact .inl ⟨_, rfl, rfl⟩
  | other code => exact .inr ⟨code, rfl, rfl⟩

/-! The end of a handler (R206). -/

@[simp] theorem finish_ok (s t : State) : finish s (.ok t) = .next t := rfl

@[simp] theorem finish_error (s : State) (e : Raised) :
    finish s (.error e) = .next (takeFault e s) := rfl

/-- A handler always answers a next state. -/
theorem finish_next (s : State) (r : Except Raised State) : ∃ t, finish s r = .next t := by
  cases r with
  | ok t => exact ⟨t, rfl⟩
  | error e => exact ⟨takeFault e s, rfl⟩

/-- What a handler's next state is: its own final state, or the fatal condition it raised. -/
theorem finish_cases {s t : State} {r : Except Raised State} (h : finish s r = .next t) :
    r = .ok t ∨ ∃ e, r = .error e ∧ t = takeFault e s := by
  cases r with
  | ok u => cases h; exact .inl rfl
  | error e => cases h; exact .inr ⟨e, rfl, rfl⟩

/-! Sequencing of checks: the first that raises decides (R9, R205). -/

@[simp] theorem except_bind_ok {α β : Type} (v : α) (f : α → Except Raised β) :
    (Except.ok v >>= f) = f v := rfl

@[simp] theorem except_bind_error {α β : Type} (e : Raised) (f : α → Except Raised β) :
    (Except.error e >>= f) = .error e := rfl

end Sys2Proof.Machine
end

