-- ==== Sys2Proof/Laws/Fetch.lean ====
section
/-! SUPPORT. What the fetch, the placing of bytes and the LOAD port can do, said once. -/

namespace Sys2Proof.Machine

theorem operandAt_le {addr : Nat} (h : addr ≤ 255) (c : Config) (s : State) :
    operandAt c addr s = .ok (.present (s.byteAt addr)) := if_pos h

theorem operandAt_gt_always {addr : Nat} (h : 255 < addr) {c : Config}
    (hc : c.operandFetchOob = .faultAlways) (s : State) :
    operandAt c addr s = .error ⟨.addressOutOfRange, addr⟩ := by
  simp [operandAt, Nat.not_le.2 h, hc]

theorem operandAt_gt_ifUsed {addr : Nat} (h : 255 < addr) {c : Config}
    (hc : c.operandFetchOob = .faultIfUsed) (s : State) :
    operandAt c addr s = .ok (.absent addr) := by
  simp [operandAt, Nat.not_le.2 h, hc]

/-- Everything an operand fetch can do. -/
theorem operandAt_cases (c : Config) (addr : Nat) (s : State) :
    (addr ≤ 255 ∧ operandAt c addr s = .ok (.present (s.byteAt addr))) ∨
    (255 < addr ∧ c.operandFetchOob = .faultAlways ∧
      operandAt c addr s = .error ⟨.addressOutOfRange, addr⟩) ∨
    (255 < addr ∧ c.operandFetchOob = .faultIfUsed ∧ operandAt c addr s = .ok (.absent addr)) := by
  by_cases h : addr ≤ 255
  · exact .inl ⟨h, operandAt_le h c s⟩
  · have h' : 255 < addr := by omega
    cases hc : c.operandFetchOob with
    | faultAlways => exact .inr (.inl ⟨h', rfl, operandAt_gt_always h' hc s⟩)
    | faultIfUsed => exact .inr (.inr ⟨h', rfl, operandAt_gt_ifUsed h' hc s⟩)

/-- Below address 254 the three bytes are in memory, whatever the policy. -/
theorem fetch_low {s : State} (h : s.pc + 2 ≤ 255) (c : Config) :
    fetch c s = .ok ⟨s.byteAt s.pc, .present (s.byteAt (s.pc + 1)), .present (s.byteAt (s.pc + 2))⟩ := by
  simp [fetch, memRead_le (show s.pc ≤ 255 by omega), operandAt_le (show s.pc + 1 ≤ 255 by omega),
    operandAt_le h]

/-- A fetch that raises, raises AddressOutOfRange at pc, pc+1 or pc+2, above 255. -/
theorem fetch_error {c : Config} {s : State} {e : Raised} (h : fetch c s = .error e) :
    e.cause = .addressOutOfRange ∧ 256 ≤ e.info ∧ s.pc ≤ e.info ∧ e.info ≤ s.pc + 2 := by
  unfold fetch at h
  by_cases hp : s.pc ≤ 255
  · rw [memRead_le hp] at h
    obtain ⟨-, ha⟩ | ⟨gt, -, ha⟩ | ⟨-, -, ha⟩ := operandAt_cases c (s.pc + 1) s <;>
      obtain ⟨-, hb⟩ | ⟨gt', -, hb⟩ | ⟨-, -, hb⟩ := operandAt_cases c (s.pc + 2) s <;>
      simp only [ha, hb, except_bind_ok, except_bind_error, reduceCtorEq, Except.error.injEq] at h <;>
      (subst h; refine ⟨rfl, ?_, ?_, ?_⟩ <;> simp only [] <;> omega)
  · rw [memRead_gt (by omega)] at h
    cases h
    exact ⟨rfl, by simp only []; omega, le_rfl, by simp only []; omega⟩

/-- A fetch that succeeds delivers the byte at pc and what `operandAt` says of the two after it. -/
theorem fetch_ok {c : Config} {s : State} {f : Fetched} (h : fetch c s = .ok f) :
    s.pc ≤ 255 ∧ f.opcode = s.byteAt s.pc ∧ operandAt c (s.pc + 1) s = .ok f.a ∧
      operandAt c (s.pc + 2) s = .ok f.b := by
  unfold fetch at h
  by_cases hp : s.pc ≤ 255
  · rw [memRead_le hp] at h
    cases ha : operandAt c (s.pc + 1) s with
    | error e => rw [ha] at h; cases h
    | ok a =>
      cases hb : operandAt c (s.pc + 2) s with
      | error e => rw [ha, hb] at h; cases h
      | ok b => rw [ha, hb] at h; cases h; exact ⟨hp, rfl, rfl, rfl⟩
  · rw [memRead_gt (by omega)] at h
    cases h

theorem placeBytes_wf (bytes : List Byte) {m : Memory} (wf : m.wf = true) (a : Nat) :
    (placeBytes a bytes m).wf = true := by
  induction bytes generalizing a m with
  | nil => exact wf
  | cons v rest ih =>
    unfold placeBytes
    split
    · exact ih (set_wf wf v (by omega)) _
    · exact ih wf _

theorem loadPort_le {a : Nat} (h : a ≤ 255) (v : Byte) (s : State) :
    loadPort a v s = .ok (s.setByte a v) := memWrite_le h v s

theorem loadPort_gt {a : Nat} (h : 255 < a) (v : Byte) (s : State) :
    loadPort a v s = .error ⟨.addressOutOfRange, a⟩ := memWrite_gt h v s

theorem loadBytes_wf (bytes : List Byte) {s t : State} {a : Nat} (h : loadBytes a bytes s = .ok t)
    (wf : s.mem.wf = true) : t.mem.wf = true := by
  induction bytes generalizing a s with
  | nil => cases h; exact wf
  | cons v rest ih =>
    unfold loadBytes at h
    by_cases le : a ≤ 255
    · rw [loadPort_le le] at h
      exact ih h (set_wf wf v (by omega))
    · rw [loadPort_gt (by omega)] at h
      cases h

theorem fillMemory_wf (f : Nat → Byte) {n : Nat} (h : n ≤ 256) : (fillMemory f n).wf = true := by
  induction n with
  | zero => exact nil_wf
  | succ n ih => exact set_wf (ih (by omega)) _ (by omega)

/-- Each cell below the bound holds the function's value. -/
theorem fillMemory_get (f : Nat → Byte) {n a : Nat} (h : n ≤ 256) (lt : a < n) :
    (fillMemory f n).get a = f a := by
  induction n with
  | zero => omega
  | succ n ih =>
    rw [fillMemory, get_set (fillMemory_wf f (by omega))]
    split
    · next e => rw [e]
    · exact ih (by omega) (by omega)

/-! Reset with MEM_INIT: the memory, and every other field as `State.reset` has it (R230). -/

section
variable (memInit : Nat → Byte)

@[simp] theorem resetWith_mem : (resetWith memInit).mem = fillMemory memInit 256 := by
  simp only [resetWith]

@[simp] theorem resetWith_regs : (resetWith memInit).regs = State.reset.regs := by
  simp only [resetWith]

@[simp] theorem resetWith_pc : (resetWith memInit).pc = 0 := by
  simp only [resetWith, State.reset]

@[simp] theorem resetWith_status : (resetWith memInit).status = .running := by
  simp only [resetWith, State.reset]

@[simp] theorem resetWith_out : (resetWith memInit).out = [] := by
  simp only [resetWith, State.reset]

end

end Sys2Proof.Machine
end

