-- ==== Sys2Proof/Laws/PerInstr.lean ====
section
/-! SUPPORT. One family of facts about every instruction as syntax: the bytes of an instruction are as
many as its width (spec/30_encoding.md R71, R79). -/

namespace Sys2Proof.Laws.EncodedLength

/-- Whatever bytes the instruction has, in whatever configuration, they are as many as its width. -/
def Statement (i : Instr) : Prop :=
  ∀ (c : Config) (bytes : List Byte), encode c i = some bytes → bytes.length = i.width

/-- The bytes of operands are as many as the operands. -/
theorem operandBytes_length {os : List Operand} {bytes : List Byte}
    (h : operandBytes os = some bytes) : bytes.length = os.length := by
  induction os generalizing bytes with
  | nil => cases h; rfl
  | cons o rest ih =>
    cases o with
    | absent p => cases h
    | present v =>
      simp only [operandBytes, Option.map_eq_some_iff] at h
      obtain ⟨tail, ht, rfl⟩ := h
      simp [ih ht]

/-- An encoded instruction is its opcode and one byte for each operand. -/
theorem encode_length {c : Config} {i : Instr} {bytes : List Byte} (h : encode c i = some bytes) :
    bytes.length = i.operands.length + 1 := by
  unfold encode at h
  split at h
  · simp only [Option.map_eq_some_iff] at h
    obtain ⟨tail, ht, rfl⟩ := h
    simp [operandBytes_length ht]
  · cases h

theorem hlt : Statement .hlt := fun _ _ h => encode_length h
theorem ldi (a b : Operand) : Statement (.ldi a b) := fun _ _ h => encode_length h
theorem prn (a : Operand) : Statement (.prn a) := fun _ _ h => encode_length h
theorem add (a b : Operand) : Statement (.add a b) := fun _ _ h => encode_length h
theorem sub (a b : Operand) : Statement (.sub a b) := fun _ _ h => encode_length h
theorem mul (a b : Operand) : Statement (.mul a b) := fun _ _ h => encode_length h
theorem push (a : Operand) : Statement (.push a) := fun _ _ h => encode_length h
theorem pop (a : Operand) : Statement (.pop a) := fun _ _ h => encode_length h
theorem call (a : Operand) : Statement (.call a) := fun _ _ h => encode_length h
theorem ret : Statement .ret := fun _ _ h => encode_length h

end Sys2Proof.Laws.EncodedLength
end

