-- ==== Sys2Proof/Laws/Step.lean ====
section
/-! SUPPORT. Inversion: everything exec and a step can do, said once. -/

namespace Sys2Proof.Machine

/-- The conditions a handler can raise: the use of an absent operand, a register index of 8 or more, or
CALL's return address (R103, R182, R202). -/
def HandlerRaises (s : State) (i : Instr) (e : Raised) : Prop :=
  (e.cause = .addressOutOfRange ∧
    (.absent e.info ∈ i.operands ∨ (i.mnemonic = .call ∧ e.info = s.pc + 2 ∧ 255 < e.info))) ∨
  (e.cause = .registerOutOfRange ∧ ∃ v, .present v ∈ i.operands ∧ 8 ≤ v.toNat ∧ e.info = v.toNat)

/-- The operand byte that names register `k`. -/
def namesReg (k : Fin 8) : Operand := .present (BitVec.ofNat 8 k.val)

/-- What exec answers: each instruction's own effect, or a fatal condition its handler raised. -/
inductive ExecCase (s : State) : Instr → State → Prop where
  | fault (i : Instr) (e : Raised) (h : HandlerRaises s i e) : ExecCase s i (takeFault e s)
  | hlt : ExecCase s .hlt (s.halt .hlt)
  | ldi (k : Fin 8) (v : Byte) :
      ExecCase s (.ldi (namesReg k) (.present v)) ((s.setReg k v).advance 3)
  | prn (k : Fin 8) : ExecCase s (.prn (namesReg k)) ((s.emit (s.reg k)).advance 2)
  | add (d q : Fin 8) (v : Byte) (h : aluResult .add (s.reg d) (s.reg q) = .ok v) :
      ExecCase s (.add (namesReg d) (namesReg q)) ((s.setReg d v).advance 3)
  | sub (d q : Fin 8) (v : Byte) (h : aluResult .sub (s.reg d) (s.reg q) = .ok v) :
      ExecCase s (.sub (namesReg d) (namesReg q)) ((s.setReg d v).advance 3)
  | mul (d q : Fin 8) (v : Byte) (h : aluResult .mul (s.reg d) (s.reg q) = .ok v) :
      ExecCase s (.mul (namesReg d) (namesReg q)) ((s.setReg d v).advance 3)
  | push (k : Fin 8) : ExecCase s (.push (namesReg k))
      (((decSp s).setByte (decSp s).sp.toNat ((decSp s).reg k)).advance 2)
  | pop (k : Fin 8) : ExecCase s (.pop (namesReg k))
      ((incSp (s.setReg k (s.byteAt s.sp.toNat))).advance 2)
  | call (k : Fin 8) (h : s.pc + 2 ≤ 255) : ExecCase s (.call (namesReg k))
      (((decSp s).setByte (decSp s).sp.toNat (narrow (s.pc + 2))).setPc ((decSp s).reg k).toNat)
  | ret : ExecCase s .ret ((incSp s).setPc (s.byteAt s.sp.toNat).toNat)

/-- Inversion of a handler whose first operand is a register: it raises on that operand, or its rest
runs with the register. -/
theorem useReg_bind {s t : State} {a : Operand} {g : Fin 8 → Except Raised State}
    (h : finish s (useReg a >>= g) = .next t) :
    (∃ e, t = takeFault e s ∧
      ((e.cause = .addressOutOfRange ∧ a = .absent e.info) ∨
       (e.cause = .registerOutOfRange ∧ ∃ v, a = .present v ∧ 8 ≤ v.toNat ∧ e.info = v.toNat))) ∨
    (∃ k, a = namesReg k ∧ finish s (g k) = .next t) := by
  obtain ⟨k, rfl, hk⟩ | ⟨v, rfl, hv, hk⟩ | ⟨addr, rfl, hk⟩ := useReg_cases a
  · rw [hk] at h
    exact .inr ⟨k, rfl, h⟩
  · rw [hk] at h
    cases h
    exact .inl ⟨_, rfl, .inr ⟨rfl, v, rfl, hv, rfl⟩⟩
  · rw [hk] at h
    cases h
    exact .inl ⟨_, rfl, .inl ⟨rfl, rfl⟩⟩

/-- A condition raised on an operand of an instruction is one its handler can raise. -/
theorem handlerRaises_of_operand {s : State} {i : Instr} {a : Operand} {e : Raised}
    (mem : a ∈ i.operands)
    (h : (e.cause = .addressOutOfRange ∧ a = .absent e.info) ∨
      (e.cause = .registerOutOfRange ∧ ∃ v, a = .present v ∧ 8 ≤ v.toNat ∧ e.info = v.toNat)) :
    HandlerRaises s i e := by
  obtain ⟨hc, rfl⟩ | ⟨hc, v, rfl, hv, hi⟩ := h
  · exact .inl ⟨hc, .inl mem⟩
  · exact .inr ⟨hc, v, mem, hv, hi⟩

/-- Inversion of the ALU handler. -/
theorem aluHandler_cases {op : AluOp} (supported : ∀ n, op ≠ .other n) {a b : Operand} {s t : State}
    (h : aluHandler op a b s = .next t) :
    (∃ e, t = takeFault e s ∧ ∃ o ∈ [a, b], (e.cause = .addressOutOfRange ∧ o = .absent e.info) ∨
      (e.cause = .registerOutOfRange ∧ ∃ v, o = .present v ∧ 8 ≤ v.toNat ∧ e.info = v.toNat)) ∨
    (∃ d q v, a = namesReg d ∧ b = namesReg q ∧ aluResult op (s.reg d) (s.reg q) = .ok v ∧
      t = (s.setReg d v).advance 3) := by
  obtain ⟨e, ht, he⟩ | ⟨d, ha, h⟩ := useReg_bind h
  · exact .inl ⟨e, ht, a, by simp, he⟩
  · obtain ⟨e, ht, he⟩ | ⟨q, hb, h⟩ := useReg_bind h
    · exact .inl ⟨e, ht, b, by simp, he⟩
    · obtain ⟨v, hv, hw⟩ | ⟨code, ho, -⟩ := aluApply_cases op d q s
      · rw [hw] at h
        cases h
        exact .inr ⟨d, q, v, ha, hb, hv, rfl⟩
      · exact absurd ho (supported code)

/-- Everything exec can do. -/
theorem exec_cases {i : Instr} {s t : State} (h : exec i s = .next t) : ExecCase s i t := by
  cases i with
  | hlt => cases h; exact .hlt
  | ldi a b =>
    obtain ⟨e, rfl, he⟩ | ⟨k, rfl, h'⟩ := useReg_bind h
    · exact .fault _ e (handlerRaises_of_operand (by simp [Instr.operands]) he)
    · cases b with
      | present v => cases h'; exact .ldi k v
      | absent p => cases h'; exact .fault _ _ (.inl ⟨rfl, .inl (by simp [Instr.operands])⟩)
  | prn a =>
    obtain ⟨e, rfl, he⟩ | ⟨k, rfl, h'⟩ := useReg_bind h
    · exact .fault _ e (handlerRaises_of_operand (by simp [Instr.operands]) he)
    · cases h'; exact .prn k
  | add a b =>
    obtain ⟨e, rfl, o, ho, he⟩ | ⟨d, q, v, rfl, rfl, hv, rfl⟩ :=
      aluHandler_cases (op := .add) (by simp) h
    · exact .fault _ e (handlerRaises_of_operand ho he)
    · exact .add d q v hv
  | sub a b =>
    obtain ⟨e, rfl, o, ho, he⟩ | ⟨d, q, v, rfl, rfl, hv, rfl⟩ :=
      aluHandler_cases (op := .sub) (by simp) h
    · exact .fault _ e (handlerRaises_of_operand ho he)
    · exact .sub d q v hv
  | mul a b =>
    obtain ⟨e, rfl, o, ho, he⟩ | ⟨d, q, v, rfl, rfl, hv, rfl⟩ :=
      aluHandler_cases (op := .mul) (by simp) h
    · exact .fault _ e (handlerRaises_of_operand ho he)
    · exact .mul d q v hv
  | push a =>
    obtain ⟨e, rfl, he⟩ | ⟨k, rfl, h'⟩ := useReg_bind h
    · exact .fault _ e (handlerRaises_of_operand (by simp [Instr.operands]) he)
    · rw [storeTop_eq] at h'; cases h'; exact .push k
  | pop a =>
    obtain ⟨e, rfl, he⟩ | ⟨k, rfl, h'⟩ := useReg_bind h
    · exact .fault _ e (handlerRaises_of_operand (by simp [Instr.operands]) he)
    · rw [loadTop_eq] at h'; cases h'; exact .pop k
  | call a =>
    obtain ⟨e, rfl, he⟩ | ⟨k, rfl, h'⟩ := useReg_bind h
    · exact .fault _ e (handlerRaises_of_operand (by simp [Instr.operands]) he)
    · by_cases le : s.pc + 2 ≤ 255
      · rw [returnAddress_le le, except_bind_ok, storeTop_eq] at h'; cases h'; exact .call k le
      · rw [returnAddress_gt (by omega)] at h'
        cases h'
        exact .fault _ _ (.inl ⟨rfl, .inr ⟨rfl, rfl, Nat.lt_of_not_le le⟩⟩)
  | ret =>
    replace h : finish s (loadTop s >>= fun v => .ok ((incSp s).setPc v.toNat)) = .next t := h
    rw [loadTop_eq] at h
    cases h
    exact .ret

/-! The step. -/

theorem stepRefusal_none {c : Config} {s : State} (hc : c.valid = true) (hs : s.status = .running) :
    stepRefusal c s = none := by
  simp [stepRefusal, hc, hs]

/-- A step exists only in an admitted configuration and a Running state (R41, R76). -/
theorem step_running {c : Config} {s t : State} (h : stepWith c s = .next t) :
    c.valid = true ∧ s.status = .running := by
  unfold stepWith at h
  cases hr : stepRefusal c s with
  | some r => rw [hr] at h; cases h
  | none =>
    unfold stepRefusal at hr
    split at hr
    · next hc => exact ⟨hc, by cases hs : s.status <;> simp_all⟩
    · cases hr

theorem step_of_fetch_error {c : Config} {s : State} {e : Raised} (hc : c.valid = true)
    (hs : s.status = .running) (hf : fetch c s = .error e) :
    stepWith c s = .next (takeFault e s) := by
  simp [stepWith, stepRefusal_none hc hs, hf]

theorem step_of_unknown {c : Config} {s : State} {f : Fetched} (hc : c.valid = true)
    (hs : s.status = .running) (hf : fetch c s = .ok f)
    (hl : lookup (dispatchTable c) f.opcode = none) :
    stepWith c s = .next (haltUnknown f.opcode s) := by
  simp [stepWith, stepRefusal_none hc hs, hf, decode, hl]

theorem step_of_lookup {c : Config} {s : State} {f : Fetched} {m : Mnemonic} (hc : c.valid = true)
    (hs : s.status = .running) (hf : fetch c s = .ok f)
    (hl : lookup (dispatchTable c) f.opcode = some m) :
    stepWith c s = exec (m.instr f.a f.b) s := by
  simp [stepWith, stepRefusal_none hc hs, hf, decode, hl]

/-- Everything a step can do: the fetch raises, the opcode is unknown, or a handler runs. -/
theorem step_cases {c : Config} {s t : State} (h : stepWith c s = .next t) :
    (∃ e, fetch c s = .error e ∧ t = takeFault e s) ∨
    (∃ f, fetch c s = .ok f ∧ lookup (dispatchTable c) f.opcode = none ∧
      t = haltUnknown f.opcode s) ∨
    (∃ f m, fetch c s = .ok f ∧ lookup (dispatchTable c) f.opcode = some m ∧
      exec (m.instr f.a f.b) s = .next t) := by
  obtain ⟨hc, hs⟩ := step_running h
  cases hf : fetch c s with
  | error e =>
    rw [step_of_fetch_error hc hs hf] at h
    cases h
    exact .inl ⟨e, rfl, rfl⟩
  | ok f =>
    cases hl : lookup (dispatchTable c) f.opcode with
    | none =>
      rw [step_of_unknown hc hs hf hl] at h
      cases h
      exact .inr (.inl ⟨f, rfl, hl, rfl⟩)
    | some m =>
      rw [step_of_lookup hc hs hf hl] at h
      exact .inr (.inr ⟨f, m, rfl, hl, h⟩)

/-! The placing of an instruction. -/

section
variable (s : State) (nbits w : Nat)

@[simp] theorem withFetchWord_reg (k : Fin 8) : (s.withFetchWord nbits w).reg k = s.reg k := rfl
@[simp] theorem withFetchWord_pc : (s.withFetchWord nbits w).pc = s.pc := rfl
@[simp] theorem withFetchWord_mem :
    (s.withFetchWord nbits w).mem = placeBytes s.pc (wordBytes nbits w) s.mem := rfl
@[simp] theorem withFetchWord_status : (s.withFetchWord nbits w).status = s.status := rfl
@[simp] theorem withFetchWord_out : (s.withFetchWord nbits w).out = s.out := rfl

end

end Sys2Proof.Machine
end

