-- ==== Sys2Proof/Tests/Slice0.lean ====
section
/-! SUPPORT. Tests whose expected results are the spec's own (spec/95_test_vectors.md and the examples of
the instruction rules), the smoke test of WellFormed, and one witness for the hypotheses of each
statement, at the boundary of each clause. -/

namespace Sys2Proof.Tests
open Sys2Proof.Machine

/-! Helpers: a small state, and the next state of an outcome. -/

/-- The reset state with registers set, at an address, over a memory. -/
def at_ (pc : Nat) (mem : Memory) (regs : List (Fin 8 × Byte) := []) : State :=
  regs.foldl (fun s kv => s.setReg kv.1 kv.2) { State.reset with pc := pc, mem := mem }

/-- The next state of an outcome. -/
def after : Host.Outcome State Fault Refusal → Option State
  | .next t => some t
  | .fault _ => none
  | .refused _ => none

/-- SUB wired at the byte the spec names as the LS-8 convention (R76). -/
def subConfig : Config := { subOpcode := some 0xA1#8, operandFetchOob := .faultAlways }

/-- The other operand-fetch policy (R102). -/
def ifUsedConfig : Config := { subOpcode := none, operandFetchOob := .faultIfUsed }

/-- SUB_OPCODE on an assigned byte: a configuration R76 refuses. -/
def clashConfig : Config := { subOpcode := some 0xA2#8, operandFetchOob := .faultAlways }

/-! WellFormed: each check refuses an ill-formed term. -/

theorem test_wf_refuses_absent_a :
    ∀ i ∈ [Instr.ldi (.absent 256) (.present 0#8), .prn (.absent 256),
      .add (.absent 256) (.present 0#8), .sub (.absent 256) (.present 0#8),
      .mul (.absent 256) (.present 0#8), .push (.absent 256), .pop (.absent 256),
      .call (.absent 256)], i.wf = false := by decide

theorem test_wf_refuses_absent_b :
    ∀ i ∈ [Instr.ldi (.present 0#8) (.absent 256), .add (.present 0#8) (.absent 256),
      .sub (.present 0#8) (.absent 256), .mul (.present 0#8) (.absent 256)], i.wf = false := by decide

theorem test_spellable_refuses_register_8 :
    ∀ i ∈ [Instr.ldi (.present 8#8) (.present 0#8), .prn (.present 8#8),
      .add (.present 8#8) (.present 0#8), .add (.present 0#8) (.present 8#8),
      .sub (.present 8#8) (.present 0#8), .sub (.present 0#8) (.present 8#8),
      .mul (.present 8#8) (.present 0#8), .mul (.present 0#8) (.present 8#8), .push (.present 8#8),
      .pop (.present 8#8), .call (.present 8#8)], i.spellable = false ∧ i.wf = true := by decide

/-! Decoding: bytes written out from R75 and R80. -/

theorem test_decode_hlt : decodeBytes referenceConfig [0b00000001#8, 0x77#8] = .ok (.hlt, [0x77#8]) := by
  rfl
theorem test_decode_ret : decodeBytes referenceConfig [0b00010001#8] = .ok (.ret, []) := by rfl
theorem test_decode_push :
    decodeBytes referenceConfig [0b01000101#8, 0x03#8] = .ok (.push (.present 0x03#8), []) := by rfl
theorem test_decode_pop :
    decodeBytes referenceConfig [0b01000110#8, 0x07#8] = .ok (.pop (.present 0x07#8), []) := by rfl
theorem test_decode_prn :
    decodeBytes referenceConfig [0b01000111#8, 0xFF#8] = .ok (.prn (.present 0xFF#8), []) := by rfl
theorem test_decode_call :
    decodeBytes referenceConfig [0b01010000#8, 0x01#8, 0x02#8] =
      .ok (.call (.present 0x01#8), [0x02#8]) := by rfl
theorem test_decode_ldi :
    decodeBytes referenceConfig [0b10000010#8, 0x00#8, 0x08#8] =
      .ok (.ldi (.present 0x00#8) (.present 0x08#8), []) := by rfl
theorem test_decode_add :
    decodeBytes referenceConfig [0b10100000#8, 0x00#8, 0x01#8] =
      .ok (.add (.present 0x00#8) (.present 0x01#8), []) := by rfl
theorem test_decode_mul :
    decodeBytes referenceConfig [0b10100010#8, 0x00#8, 0x01#8] =
      .ok (.mul (.present 0x00#8) (.present 0x01#8), []) := by rfl
/-- R76: wired, the byte is SUB; by default it is unassigned (E2). -/
theorem test_decode_sub :
    decodeBytes subConfig [0xA1#8, 0x00#8, 0x01#8] =
      .ok (.sub (.present 0x00#8) (.present 0x01#8), []) ∧
    decodeBytes referenceConfig [0xA1#8, 0x00#8, 0x01#8] = .error (.unknownOpcode 0xA1#8) := ⟨rfl, rfl⟩
/-- R77, E3: the top bits alone make no instruction. -/
theorem test_decode_rejects_80 :
    decodeBytes referenceConfig [0x80#8, 0x00#8, 0x00#8] = .error (.unknownOpcode 0x80#8) := by rfl
theorem test_encode_ldi : encode referenceConfig (.ldi (.present 0#8) (.present 8#8)) =
    some [0x82#8, 0x00#8, 0x08#8] := by decide
/-- R80: register and literal spelling, and none for a register above 7. -/
theorem test_assembly : (Instr.ldi (.present 0#8) (.present 8#8)).assembly = some "LDI R0, 8" ∧
    (Instr.push (.present 8#8)).assembly = none := by decide

/-! The engine (spec/95_test_vectors.md 2.1). -/

/-- E1, V7: an unassigned byte halts and moves nothing. -/
theorem test_unknown_opcode : (after (step State.reset)) =
    some { State.reset with status := .halted (.unknownOpcode 0x00#8 0) } := by decide
/-- E4, E5: HLT at 254 under the two policies. -/
theorem test_hlt_at_254 :
    (after (step (at_ 254 [(254, 0x01#8)]))).map State.status = some (.faulted .addressOutOfRange 256) ∧
    (after (stepWith ifUsedConfig (at_ 254 [(254, 0x01#8)]))).map State.status = some (.halted .hlt) := by
  decide
/-- E8: the opcode fetch above 255. -/
theorem test_fetch_at_256 : (after (step (at_ 256 []))).map State.status =
    some (.faulted .addressOutOfRange 256) := by decide
/-- E14: the index check on operand_a comes before the use of operand_b. -/
theorem test_priority_register_before_absent :
    (after (stepWith ifUsedConfig (at_ 254 [(254, 0x82#8), (255, 0x09#8)]))).map State.status =
      some (.faulted .registerOutOfRange 9) := by decide
/-- R41: no step from a halted state. -/
theorem test_no_step_after_halt :
    after (step { State.reset with status := .halted .hlt }) = none := by decide

/-! The instructions (2.2 to 2.5). -/

/-- B1. -/
theorem test_hlt : after (step (at_ 0 [(0, 0x01#8)])) =
    some { at_ 0 [(0, 0x01#8)] with status := .halted .hlt } := by decide
/-- V1, first row. -/
theorem test_ldi : (after (step (at_ 0 [(0, 0x82#8), (2, 0x08#8)]))).map (fun t => (t.reg 0, t.pc)) =
    some (0x08#8, 3) := by decide
/-- B5. -/
theorem test_ldi_register_8 : (after (step (at_ 0 [(0, 0x82#8), (1, 0x08#8), (2, 0x05#8)]))) =
    some { at_ 0 [(0, 0x82#8), (1, 0x08#8), (2, 0x05#8)] with
      status := .faulted .registerOutOfRange 8 } := by decide
/-- B7: the reset SP. -/
theorem test_prn_r7 : (after (step (at_ 0 [(0, 0x47#8), (1, 0x07#8)]))).map (fun t => (t.out, t.pc)) =
    some ([244#8], 2) := by decide
/-- A1: 255 + 1. -/
theorem test_add_wraps : (after (exec (.add (.present 0#8) (.present 1#8))
    (at_ 0 [] [(0, 255#8), (1, 1#8)]))).map (fun t => (t.reg 0, t.reg 1, t.pc)) =
      some (0#8, 1#8, 3) := by decide
/-- A8: the destination is checked before the source. -/
theorem test_add_checks_destination_first : (after (exec (.add (.present 9#8) (.present 8#8))
    State.reset)).map State.status = some (.faulted .registerOutOfRange 9) := by decide
/-- A18: 3 - 5. -/
theorem test_sub_wraps : (after (stepWith subConfig (at_ 0 [(0, 0xA1#8), (2, 0x01#8)]
    [(0, 3#8), (1, 5#8)]))).map (fun t => (t.reg 0, t.reg 1)) = some (254#8, 5#8) := by decide
/-- A21: a source that is also the destination. -/
theorem test_sub_same_register : (after (exec (.sub (.present 0#8) (.present 0#8))
    (at_ 0 [] [(0, 99#8)]))).map (fun t => t.reg 0) = some 0#8 := by decide
/-- A12. -/
theorem test_mul : (after (exec (.mul (.present 0#8) (.present 1#8))
    (at_ 0 [] [(0, 15#8), (1, 17#8)]))).map (fun t => (t.reg 0, t.pc)) = some (255#8, 3) := by decide
/-- A11. -/
theorem test_mul_drops_the_high_byte : (after (exec (.mul (.present 0#8) (.present 1#8))
    (at_ 0 [] [(0, 255#8), (1, 255#8)]))).map (fun t => t.reg 0) = some 1#8 := by decide
/-- S3: PUSH R7 stores the decremented SP. -/
theorem test_push_r7 : (after (exec (.push (.present 7#8)) State.reset)).map
    (fun t => (t.sp, t.mem, t.pc)) = some (0xF3#8, [(0xF3, 0xF3#8)], 2) := by decide
/-- S5: a push from SP = 0. -/
theorem test_push_wraps : (after (exec (.push (.present 1#8))
    (at_ 0 [] [(7, 0#8), (1, 0x5A#8)]))).map (fun t => (t.sp, t.byteAt 0xFF)) =
      some (0xFF#8, 0x5A#8) := by decide
/-- S4: POP R7 leaves the popped byte plus one. -/
theorem test_pop_r7 : (after (exec (.pop (.present 7#8))
    (at_ 0 [(0xF3, 0x20#8)] [(7, 0xF3#8)]))).map State.sp = some 0x21#8 := by decide
/-- S6: a pop from SP = 255. -/
theorem test_pop_wraps : (after (exec (.pop (.present 1#8))
    (at_ 0 [(0xFF, 0x5A#8)] [(7, 0xFF#8)]))).map (fun t => (t.reg 1, t.sp)) =
      some (0x5A#8, 0x00#8) := by decide
/-- C1. -/
theorem test_call : (after (exec (.call (.present 1#8)) (at_ 3 [] [(1, 8#8)]))).map
    (fun t => (t.byteAt 0xF3, t.sp, t.pc)) = some (5#8, 0xF3#8, 8) := by decide
/-- C3: CALL R7 jumps to the decremented SP. -/
theorem test_call_r7 : (after (exec (.call (.present 7#8)) (at_ 0x10 []))).map
    (fun t => (t.byteAt 0xF3, t.sp, t.pc)) = some (0x12#8, 0xF3#8, 0xF3) := by decide
/-- C2. -/
theorem test_ret : (after (exec .ret (at_ 0 [(0xF3, 5#8)] [(7, 0xF3#8)]))).map
    (fun t => (t.pc, t.sp)) = some (5, 0xF4#8) := by decide
/-- C7. -/
theorem test_ret_wraps : (after (exec .ret (at_ 0 [(0xFF, 0x40#8)] [(7, 0xFF#8)]))).map
    (fun t => (t.pc, t.sp)) = some (0x40, 0x00#8) := by decide
/-- Memory keeps its canonical form when a cell goes back to what it reads as unlisted. -/
theorem test_memory_canonical : Memory.set [(3, 7#8), (9, 1#8)] 3 0#8 = [(9, 1#8)] := by decide
/-- P8: the STATUS of a fatal condition (R200). -/
theorem test_status_port : statusPort { State.reset with status := .faulted .registerOutOfRange 9 } =
    ⟨2, 2, .value 9⟩ := by decide
/-- V1 through the launch: the image at 0, its first byte fetched, one step run. -/
theorem test_launch : (match launch (fun _ => 0#8) [0x82#8, 0x00#8, 0x08#8] with
    | .ok s => (after (step s)).map fun t => (t.reg 0, t.pc)
    | .error _ => none) = some (8#8, 3) := by decide +kernel

/-! Witnesses: a concrete state and operands that meet the hypotheses of each statement. -/

theorem witness_ResetRegistersAndEntryPoint : State.reset = State.reset ∧ (6 : Fin 8).val ≤ 6 := by decide
theorem witness_ResetMemoryHoldsMemInit : 255 < 256 := by decide
theorem witness_LaunchPlacesTheImage :
    (List.replicate 256 1#8).length ≤ 256 ∧ 256 < (List.replicate 257 1#8).length ∧ 255 < 256 := by
  simp only [List.length_replicate]
  decide
theorem witness_LoadPortWritesOneByte :
    State.reset.mem.wf = true ∧ 255 ≤ 255 ∧ 255 < 256 ∧ (0 : Nat) ≤ 255 := by decide
theorem witness_StatusPortFields :
    State.reset.status = .running ∧
    (State.reset.halt .hlt).status = .halted .hlt ∧
    (State.reset.halt (.unknownOpcode 0#8 0)).status = .halted (.unknownOpcode 0#8 0) ∧
    (takeFault ⟨.addressOutOfRange, 256⟩ State.reset).status = .faulted .addressOutOfRange 256 ∧
    (takeFault ⟨.registerOutOfRange, 8⟩ State.reset).status = .faulted .registerOutOfRange 8 ∧
    (takeFault ⟨.unsupportedOperation, 0⟩ State.reset).status = .faulted .unsupportedOperation 0 := by
  decide
theorem witness_ReadbackOnlyWhenOver :
    State.reset.status = .running ∧ (State.reset.halt .hlt).status ≠ .running := by decide
theorem witness_RegisterReadsBackWhatWasWritten : (6 : Fin 8) ≠ 7 := by decide
theorem witness_MemoryPrimitivesActOnOneByte :
    (at_ 0 [(255, 1#8)]).mem.wf = true ∧ 255 ≤ 255 ∧ 255 < 256 ∧ (254 : Nat) ≠ 255 := by decide
theorem witness_CanonicalMemoriesWithSameBytesAreEqual :
    Memory.wf [(0, 1#8), (255, 2#8)] = true ∧
    Memory.wf (Memory.set [(255, 2#8)] 0 1#8) = true ∧
    ∀ a, a < 256 → Memory.get [(0, 1#8), (255, 2#8)] a =
      Memory.get (Memory.set [(255, 2#8)] 0 1#8) a := ⟨rfl, rfl, fun _ _ => rfl⟩
theorem witness_StepRefusedUnlessRunningAndConfigured :
    referenceConfig.valid = true ∧ (State.reset.halt .hlt).status ≠ .running ∧
    clashConfig.subOpcode = some 0xA2#8 ∧ 0xA2#8 ∈ opcodeTable.map Prod.fst := by decide
theorem witness_RunningStepAlwaysAnswers :
    subConfig.valid = true ∧ ifUsedConfig.valid = true ∧ (at_ 258 []).status = .running := by decide
/-- Both clauses on pc, and a step whose next pc is above 255 (E11). -/
theorem witness_OpcodeFetchReadsAtPc :
    (at_ 256 []).status = .running ∧ 255 < (at_ 256 []).pc ∧
    (∃ f, fetch ifUsedConfig (at_ 255 []) = .ok f) ∧
    ∃ t, stepWith referenceConfig (at_ 253 [(253, 0x82#8), (255, 7#8)]) = .next t ∧ 255 < t.pc :=
  ⟨rfl, by decide, ⟨_, rfl⟩, ⟨_, rfl, by decide⟩⟩
theorem witness_OperandFetchFollowsThePolicy :
    (at_ 253 []).pc ≤ 253 ∧ 254 ≤ (at_ 254 []).pc ∧ (at_ 255 []).pc ≤ 255 ∧
    referenceConfig.operandFetchOob = .faultAlways ∧
    ifUsedConfig.operandFetchOob = .faultIfUsed ∧ (at_ 255 []).status = .running := by decide
theorem witness_StepRunsTheDecodedInstruction :
    referenceConfig.valid = true ∧ (at_ 253 [(253, 0x11#8)]).status = .running ∧
    (∃ f, fetch referenceConfig (at_ 253 [(253, 0x11#8)]) = .ok f ∧
      decode referenceConfig f.opcode f.a f.b = .ok .ret) ∧
    (let s := at_ 253 [(253, 0x11#8)]
     s.pc ≤ 253 ∧ decodeBytes referenceConfig [s.byteAt s.pc, s.byteAt (s.pc + 1),
       s.byteAt (s.pc + 2)] = .ok (.ret, [0#8, 0#8])) ∧
    decode referenceConfig 0x11#8 (.absent 256) (.absent 257) = .ok .ret :=
  ⟨rfl, rfl, ⟨_, rfl, rfl⟩, ⟨by decide, rfl⟩, rfl⟩
theorem witness_PlacedWordRunsNext :
    (at_ 253 [(255, 9#8)]).mem.wf = true ∧ (at_ 253 [(255, 9#8)]).status = .running ∧
    (at_ 253 [(255, 9#8)]).pc ≤ 253 ∧ decodeTableWord 24 0x0500A0 = some (.add (.present 0#8) (.present 5#8)) := by decide
theorem witness_UnknownOpcodeHalts :
    ∃ f, fetch referenceConfig (at_ 253 [(253, 0xA1#8)]) = .ok f ∧
      lookup (dispatchTable referenceConfig) f.opcode = none := ⟨_, rfl, rfl⟩
/-- The clauses of R205, each at a boundary. -/
theorem witness_FirstConditionInOrderIsReported :
    (at_ 254 []).status = .running ∧ 255 < (at_ 256 []).pc ∧ 255 < (at_ 255 []).pc + 1 ∧ 255 < (at_ 254 []).pc + 2 ∧
    (at_ 254 []).pc + 1 ≤ 255 ∧ 7 < (8#8 : Byte).toNat ∧ (7#8 : Byte).toNat ≤ 7 ∧
    (∃ f, fetch ifUsedConfig (at_ 254 []) = .ok f ∧
      lookup (dispatchTable ifUsedConfig) f.opcode = none) :=
  ⟨rfl, by decide, by decide, by decide, by decide, by decide, by decide, ⟨_, rfl, rfl⟩⟩
theorem witness_FaultChangesNothingButStatus :
    (∃ t, stepWith referenceConfig (at_ 254 [(254, 1#8)]) = .next t ∧
      t.status = .faulted .addressOutOfRange 256) ∧
    ∃ t, exec (.push (.present 8#8)) State.reset = .next t ∧
      t.status = .faulted .registerOutOfRange 8 := ⟨⟨_, rfl, rfl⟩, ⟨_, rfl, rfl⟩⟩
theorem witness_UnsupportedOperationReachedByNoStep :
    ∃ t, stepWith referenceConfig (at_ 0 [(0, 0xA0#8)]) = .next t := ⟨_, rfl⟩
theorem witness_RegisterIndexAbove7Raises : 8 ≤ (8#8 : Byte).toNat ∧ (7#8 : Byte).toNat ≤ 7 := by decide
theorem witness_AbsentOnlyOperandRaises :
    Instr.call (.absent 256) ∈ [Instr.prn (.absent 256), .push (.absent 256), .pop (.absent 256),
      .call (.absent 256)] := by decide
theorem witness_OpcodeTableRows :
    (0xA2, Mnemonic.mul, 3) ∈ [(0x01, Mnemonic.hlt, 1), (0x11, .ret, 1), (0x45, .push, 2),
      (0x46, .pop, 2), (0x47, .prn, 2), (0x50, .call, 2), (0x82, .ldi, 3), (0xA0, .add, 3),
      (0xA2, .mul, 3)] := by decide
theorem witness_OpcodeBitsOfTheAssignedBytes : (0xA2#8, Mnemonic.mul) ∈ opcodeTable := by decide
theorem witness_SubSelectedOnlyByItsParameter :
    referenceConfig.subOpcode = none ∧ subConfig.valid = true ∧
    subConfig.subOpcode = some 0xA1#8 := by decide
theorem witness_UnassignedByteCount : referenceConfig.valid = true ∧ subConfig.valid = true := by decide
theorem witness_DecodeOfEncodeIsTheInstruction :
    subConfig.valid = true ∧ encode subConfig (.sub (.present 255#8) (.present 0#8)) =
      some [0xA1#8, 0xFF#8, 0x00#8] := by decide
theorem witness_EncodeOfDecodeIsTheBytes :
    subConfig.valid = true ∧ decodeBytes subConfig [0xA1#8, 0xFF#8, 0x00#8, 0x09#8] =
      .ok (.sub (.present 255#8) (.present 0#8), [0x09#8]) := ⟨rfl, rfl⟩
theorem witness_HltHaltsAndChangesNothingElse :
    (at_ 255 [(255, 1#8)]).pc ≤ 255 ∧ (at_ 255 [(255, 1#8)]).byteAt 255 = 0x01#8 ∧
    (at_ 255 [(255, 1#8)]).status = .running ∧ 254 ≤ (at_ 255 [(255, 1#8)]).pc := by decide
theorem witness_OnlyHltEndsARunNormally :
    ∃ t, exec .hlt State.reset = .next t ∧ State.reset.status = .running ∧
      t.status = .halted .hlt := ⟨_, rfl, rfl, rfl⟩
theorem witness_LdiWritesTheLiteral : (7#8 : Byte).toNat < 8 := by decide
theorem witness_PrnEmitsTheRegister : (7#8 : Byte).toNat < 8 := by decide
/-- The five bytes at the last place each policy lets both steps run from. -/
theorem witness_LdiThenPrnEmitsTheLiteral :
    (let s := at_ 250 [(250, 0x82#8), (251, 7#8), (252, 42#8), (253, 0x47#8), (254, 7#8)]
     s.status = .running ∧ s.byteAt 250 = 0x82#8 ∧ s.byteAt 251 = 7#8 ∧ s.byteAt 252 = 42#8 ∧
      s.byteAt 253 = 0x47#8 ∧ s.byteAt 254 = 7#8 ∧ s.pc + 5 ≤ 255) ∧
    (let s := at_ 251 [(251, 0x82#8), (252, 7#8), (253, 42#8), (254, 0x47#8), (255, 7#8)]
     s.byteAt 251 = 0x82#8 ∧ s.byteAt 255 = 7#8 ∧ ifUsedConfig.operandFetchOob = .faultIfUsed ∧
      s.pc + 4 ≤ 255) := by decide
theorem witness_AddWritesTheSumModulo256 : (7#8 : Byte).toNat < 8 ∧ (0#8 : Byte).toNat < 8 := by decide
theorem witness_SubWritesTheDifferenceModulo256 :
    (0#8 : Byte).toNat < 8 ∧ (7#8 : Byte).toNat < 8 := by decide
theorem witness_MulWritesTheProductModulo256 :
    (7#8 : Byte).toNat < 8 ∧ (7#8 : Byte).toNat < 8 := by decide
theorem witness_PushStoresBelowTheStackTop :
    (6#8 : Byte).toNat < 8 ∧ (7#8 : Byte).toNat < 8 ∧ (6#8 : Byte).toNat ≠ 7 ∧
    (at_ 0 [] [(7, 0#8)]).mem.wf = true := by decide
theorem witness_PopLoadsTheStackTop :
    (6#8 : Byte).toNat < 8 ∧ (6#8 : Byte).toNat ≠ 7 ∧ (7#8 : Byte).toNat = 7 := by decide
theorem witness_PushThenPopRestoresRegisters :
    (7#8 : Byte).toNat < 8 ∧ (at_ 0 [(0xF3, 9#8)]).mem.wf = true := by decide
theorem witness_StackPointerWrapsAndNeverFaults :
    (at_ 0 [] [(7, 0#8)]).sp = 0x00#8 ∧ (at_ 0 [] [(7, 0xFF#8)]).sp = 0xFF#8 ∧
    (∃ t, exec (.push (.present 0#8)) State.reset = .next t) ∧
    (∃ t, exec (.pop (.present 0#8)) State.reset = .next t) ∧
    ∃ t, exec .ret State.reset = .next t := ⟨rfl, rfl, ⟨_, rfl⟩, ⟨_, rfl⟩, ⟨_, rfl⟩⟩
theorem witness_CallPushesTheReturnAddressAndJumps :
    (at_ 253 []).mem.wf = true ∧ (at_ 253 []).pc + 2 ≤ 255 ∧ (6#8 : Byte).toNat ≠ 7 ∧
    (7#8 : Byte).toNat < 8 := by decide
theorem witness_RetReturnsAfterTheCall :
    (at_ 253 []).pc + 2 ≤ 255 ∧ ∃ t, exec (.call (.present 1#8)) (at_ 253 []) = .next t ∧
      t.sp = t.sp ∧ (t.byteAt t.sp.toNat).toNat = (at_ 253 []).pc + 2 := ⟨by decide, ⟨_, rfl, rfl, rfl⟩⟩
theorem witness_OnlyPrnTouchesTheOutput :
    (∃ t, exec (.push (.present 0#8)) State.reset = .next t ∧
      (Instr.push (.present 0#8)).mnemonic ≠ .prn) ∧
    ∃ t, exec (.prn (.present 7#8)) State.reset = .next t ∧ t.status = .running :=
  ⟨⟨_, rfl, by decide⟩, ⟨_, rfl, rfl⟩⟩
theorem witness_OutEventsOfAStep :
    (7#8 : Byte).toNat < 8 ∧ ∃ t, exec .hlt State.reset = .next t ∧ Instr.hlt.mnemonic ≠ .prn :=
  ⟨by decide, ⟨_, rfl, by decide⟩⟩
theorem witness_OnlyPushAndCallWriteMemory :
    (∃ t, exec (.pop (.present 0#8)) State.reset = .next t ∧
      (Instr.pop (.present 0#8)).mnemonic ≠ .push ∧ (Instr.pop (.present 0#8)).mnemonic ≠ .call) ∧
    (∃ t, exec (.push (.present 7#8)) State.reset = .next t) ∧ State.reset.mem.wf = true :=
  ⟨⟨_, rfl, by decide, by decide⟩, ⟨_, rfl⟩, rfl⟩
theorem witness_RegistersAnInstructionWrites :
    ∃ t, exec (.ldi (.present 3#8) (.present 1#8)) State.reset = .next t ∧
      t.reg 3 ≠ State.reset.reg 3 := ⟨_, rfl, by decide⟩
theorem witness_NextPcOfEachInstruction :
    (∃ t, exec (.call (.present 7#8)) State.reset = .next t ∧ t.status = .running) ∧
    ∃ t, exec .hlt State.reset = .next t ∧ t.status ≠ .running := ⟨⟨_, rfl, rfl⟩, ⟨_, rfl, by decide⟩⟩
theorem witness_OnlyCallAndRetSetPc :
    (∃ t, exec (.ldi (.present 3#8) (.present 1#8)) State.reset = .next t) ∧
    (∃ t, exec (.call (.present 7#8)) State.reset = .next t ∧ t.status = .running) ∧
    (∃ t, exec (.call (.present 6#8)) State.reset = .next t ∧ t.status = .running ∧
      (6 : Fin 8) ≠ 7) ∧
    ∃ t, exec .ret State.reset = .next t :=
  ⟨⟨_, rfl⟩, ⟨_, rfl, rfl⟩, ⟨_, rfl, rfl, by decide⟩, ⟨_, rfl⟩⟩
/-- Each of the three places, after a PUSH and after a CALL. -/
theorem witness_FetchSeesTheStoredByte :
    (∃ t f, exec (.push (.present 7#8)) State.reset = .next t ∧
      fetch referenceConfig (t.setPc 0xF3) = .ok f ∧ 0xF3 = (decSp State.reset).sp.toNat) ∧
    (∃ t f, exec (.call (.present 7#8)) State.reset = .next t ∧
      fetch referenceConfig (t.setPc 0xF2) = .ok f ∧ 0xF2 + 1 = (decSp State.reset).sp.toNat ∧
      (0x02#8 : Byte).toNat = State.reset.pc + 2) ∧
    ∃ t f, exec (.push (.present 7#8)) State.reset = .next t ∧
      fetch referenceConfig (t.setPc 0xF1) = .ok f ∧ 0xF1 + 2 = (decSp State.reset).sp.toNat :=
  ⟨⟨_, _, rfl, rfl, rfl⟩, ⟨_, _, rfl, rfl, rfl, rfl⟩, ⟨_, _, rfl, rfl, rfl⟩⟩
/-- PUSH R7 over its own operand at 253, and at 254 under the other policy. -/
theorem witness_StepUsesTheOperandsItFetched_push :
    (let s := at_ 253 [(253, 0x45#8), (254, 0x07#8)] [(7, 0xFF#8)]
     s.status = .running ∧ s.mem.wf = true ∧ s.byteAt s.pc = 0x45#8 ∧ s.byteAt (s.pc + 1) = 7#8 ∧
      (decSp s).sp.toNat ∈ [s.pc, s.pc + 1, s.pc + 2] ∧ s.pc ≤ 253) ∧
    (let s := at_ 254 [(254, 0x45#8), (255, 0x07#8)] [(7, 0x00#8)]
     s.status = .running ∧ s.mem.wf = true ∧ s.byteAt s.pc = 0x45#8 ∧ s.byteAt (s.pc + 1) = 7#8 ∧
      (decSp s).sp.toNat ∈ [s.pc, s.pc + 1, s.pc + 2] ∧ s.pc = 254 ∧
      ifUsedConfig.operandFetchOob = .faultIfUsed ∧ ifUsedConfig.valid = true) := by decide
/-- CALL over its own operand at 253, and at 2, where the stored pc + 2 = 4 names another register. -/
theorem witness_StepUsesTheOperandsItFetched_call :
    (let s := at_ 253 [(253, 0x50#8), (254, 0x01#8)] [(7, 0xFF#8)]
     s.status = .running ∧ s.mem.wf = true ∧ s.byteAt s.pc = 0x50#8 ∧ s.byteAt (s.pc + 1) = 1#8 ∧
      (decSp s).sp.toNat ∈ [s.pc, s.pc + 1, s.pc + 2] ∧ s.pc ≤ 253) ∧
    (let s := at_ 2 [(2, 0x50#8), (3, 0x01#8)] [(1, 0x20#8), (4, 0x30#8), (7, 0x04#8)]
     s.byteAt s.pc = 0x50#8 ∧ (decSp s).sp.toNat = s.pc + 1 ∧
      s.reg 1 ≠ s.reg 4) := by decide
/-- R62: CALL R1 whose store of 4 falls on its operand byte goes to R1's value, not to R4's. -/
theorem test_call_over_its_operand :
    (after (step (at_ 2 [(2, 0x50#8), (3, 0x01#8)] [(1, 0x20#8), (4, 0x30#8), (7, 0x04#8)]))).map
      (fun t => (t.pc, t.byteAt 3)) = some (0x20, 0x04#8) := by decide
theorem witness_LaunchMeetsTheInvariant :
    ∃ s, launch (fun _ => 0#8) [0x01#8] = .ok s := ⟨_, rfl⟩
/-- A state that meets the invariant and has a next step, running and ended. -/
theorem witness_StepKeepsTheInvariant :
    (at_ 258 []).Inv referenceConfig ∧
    ∃ t, stepWith referenceConfig (at_ 258 []) = .next t ∧ t.Inv referenceConfig :=
  ⟨⟨rfl, by decide, trivial⟩, ⟨_, rfl, ⟨rfl, by decide, (by decide : 256 ≤ 258 ∧ 258 ≤ 258 ∧ 258 ≤ 258 + 2)⟩⟩⟩
theorem witness_EveryRunMeetsTheInvariant :
    ∃ s t, launch (fun _ => 0#8) [0x01#8] = .ok s ∧ Reachable referenceConfig s t :=
  ⟨_, _, rfl, .start⟩
/-- A Running state with a next step, an ended state, and an ended state that a run reaches. -/
theorem witness_RunLoopEndsAtTheFirstEndedState :
    referenceConfig.valid = true ∧ (at_ 0 [(0, 1#8)]).status = .running ∧
    ((at_ 0 [(0, 1#8)]).halt .hlt).status ≠ .running ∧
    stepWith referenceConfig (at_ 0 [(0, 1#8)]) = .next ((at_ 0 [(0, 1#8)]).halt .hlt) ∧
    Reachable referenceConfig (at_ 0 [(0, 1#8)]) ((at_ 0 [(0, 1#8)]).halt .hlt) :=
  ⟨rfl, rfl, by decide, rfl, .step _ _ .start rfl⟩
/-- A safe run has a state to speak of: HLT at 0 ends in a state that is not faulted (R111). -/
theorem test_safe_end : ((after (runLoop referenceConfig 2 (at_ 0 [(0, 1#8)]))).map State.notFaulted) =
    some true := by decide
/-- The host's placing of a word: LDI R0, 8 at reset runs as the first instruction. -/
theorem test_placed_word : (after (step (State.reset.withFetchWord 24 0x080082))).map
    (fun t => (t.reg 0, t.pc)) = some (8#8, 3) := by decide

end Sys2Proof.Tests
end

section
/-! PROOFS. Scope (spec/00_scope.md): reads after writes of the register file. -/

namespace Sys2Proof.Machine

variable (s : State)

theorem setReg_reg_same (k : Fin 8) (v : Byte) : (s.setReg k v).reg k = v :=
  (setReg_reg s k k v).trans (if_pos rfl)

theorem setReg_reg_of_ne {k j : Fin 8} (ne : j ≠ k) (v : Byte) : (s.setReg k v).reg j = s.reg j :=
  (setReg_reg s k j v).trans (if_neg ne)

end Sys2Proof.Machine

namespace Sys2Proof.Proofs
open Sys2Proof.Machine

/-- Settles O7: the read-after-write laws of the register file; both clauses on SP are the same law at
register 7, which SP names (R23). -/
theorem registerReadsBackWhatWasWritten : Obligations.RegisterReadsBackWhatWasWritten := by
  intro s k j v
  have sp_write : (s.setSp v).reg 7 = v := by
    rw [setSp_eq_setReg, setReg_reg_same]
  have sp_read : (s.setReg 7 v).sp = v := by
    rw [sp_eq_reg, setReg_reg_same]
  exact ⟨setReg_reg_same s k v, fun ne => setReg_reg_of_ne s ne v, sp_eq_reg s, sp_write, sp_read⟩

end Sys2Proof.Proofs
end

section
/-! PROOFS. The state (spec/10_state.md): what every instruction does to each field, the host ports, and
the invariant that every step keeps. -/

namespace Sys2Proof.Machine

/-! Registers. -/

/-- A register depends on the register file alone. -/
theorem reg_congr {s t : State} (h : s.regs = t.regs) (k : Fin 8) : s.reg k = t.reg k := by
  simp only [State.reg, h]

/-- A write to one register changes no other. -/
theorem eq_of_setReg_reg_ne {s : State} {k j : Fin 8} {v : Byte} (h : (s.setReg k v).reg j ≠ s.reg j) :
    j = k :=
  not_imp_comm.1 (fun ne => setReg_reg_of_ne s ne v) h

/-- The reset value of R0 to R6 (R25). -/
theorem reset_reg_le : ∀ k : Fin 8, k.val ≤ 6 → State.reset.reg k = 0x00#8 := by decide

theorem resetWith_reg (memInit : Nat → Byte) (k : Fin 8) :
    (resetWith memInit).reg k = State.reset.reg k :=
  reg_congr (resetWith_regs memInit) k

/-! The effect of an instruction on one field, from the inversion of exec. -/

/-- An instruction keeps the status, unless it is HLT or its handler raises (R106, R120, R206). -/
theorem exec_status_cases {i : Instr} {s t : State} (h : exec i s = .next t) :
    t.status = s.status ∨ (i = .hlt ∧ t = s.halt .hlt) ∨
      ∃ e, HandlerRaises s i e ∧ t = takeFault e s := by
  cases exec_cases h with
  | fault i e he => exact .inr (.inr ⟨e, he, rfl⟩)
  | hlt => exact .inr (.inl ⟨rfl, rfl⟩)
  | _ => exact .inl rfl

/-- Only PRN changes the output (R31). -/
theorem exec_out_of_ne_prn {i : Instr} {s t : State} (h : exec i s = .next t) (ne : i.mnemonic ≠ .prn) :
    t.out = s.out := by
  cases exec_cases h with
  | prn k => exact absurd rfl ne
  | _ => rfl

/-- PRN of a register emits its value and advances pc by 2 (R124). -/
theorem exec_prn {s : State} {r : Byte} (h : r.toNat < 8) :
    exec (.prn (.present r)) s = .next ((s.emit (s.reg ⟨r.toNat, h⟩)).advance 2) := by
  simp [exec, execPrn, useReg_lt h]

/-- The stores of PUSH and CALL are at an address of the memory, so that they keep its canonical form. -/
theorem exec_keeps_wf {i : Instr} {s t : State} (h : exec i s = .next t) (wf : s.mem.wf = true) :
    t.mem.wf = true := by
  cases exec_cases h with
  | push | call => exact set_wf wf _ (decSp s).sp.isLt
  | _ => exact wf

/-- From an address of the memory an instruction leaves pc at most 258 (R26). -/
theorem exec_pc_le {i : Instr} {s t : State} (h : exec i s = .next t) (le : s.pc ≤ 255) :
    t.pc ≤ 258 := by
  have short : s.pc + 2 ≤ 258 := by omega
  have long : s.pc + 3 ≤ 258 := by omega
  cases exec_cases h with
  | fault | hlt => exact Nat.le_trans le (by decide)
  | ldi | add | sub | mul => exact long
  | prn | push | pop => exact short
  | call k _ => exact Nat.le_trans (byte_le ((decSp s).reg k)) (by decide)
  | ret => exact Nat.le_trans (byte_le (s.byteAt s.sp.toNat)) (by decide)

/-! Another output: what a handler answers does not depend on the output so far (R31). -/

/-- Two answers of a handler that differ in the output alone. -/
inductive AgreeButOut : Except Raised State → Except Raised State → Prop where
  | ok (t : State) (other : List Byte) : AgreeButOut (.ok t) (.ok { t with out := other })
  | error (e : Raised) : AgreeButOut (.error e) (.error e)

theorem agreeButOut_bind {α : Type} (x : Except Raised α) {f g : α → Except Raised State}
    (h : ∀ v, AgreeButOut (f v) (g v)) : AgreeButOut (x >>= f) (x >>= g) := by
  cases x with
  | ok v => exact h v
  | error e => exact .error e

/-- Handlers that agree but for the output end in states that do, a fatal condition included. -/
theorem finish_agreeButOut {s t : State} {r r' : Except Raised State} (other : List Byte)
    (agree : AgreeButOut r r') (h : finish s r = .next t) :
    ∃ u, finish { s with out := other } r' = .next u ∧ u.regs = t.regs ∧ u.pc = t.pc ∧
      u.mem = t.mem ∧ u.status = t.status := by
  cases agree with
  | ok v o => cases h; exact ⟨_, rfl, rfl, rfl, rfl, rfl⟩
  | error e => cases h; exact ⟨_, rfl, rfl, rfl, rfl, rfl⟩

/-- The ALU handler reads and writes registers, and not the output. -/
theorem aluHandler_otherOut {op : AluOp} {a b : Operand} {s t : State} (other : List Byte)
    (h : aluHandler op a b s = .next t) :
    ∃ u, aluHandler op a b { s with out := other } = .next u ∧ u.regs = t.regs ∧ u.pc = t.pc ∧
      u.mem = t.mem ∧ u.status = t.status := by
  refine finish_agreeButOut other (agreeButOut_bind _ fun d => agreeButOut_bind _ fun q => ?_) h
  have same : aluResult op (State.reg { s with out := other } d) (State.reg { s with out := other } q) =
      aluResult op (s.reg d) (s.reg q) := rfl
  unfold aluApply
  rw [same]
  cases aluResult op (s.reg d) (s.reg q) with
  | ok v => exact .ok _ _
  | error e => exact .error e

/-- No instruction reads the output (R31). -/
theorem exec_otherOut {i : Instr} {s t : State} (other : List Byte) (h : exec i s = .next t) :
    ∃ u, exec i { s with out := other } = .next u ∧ u.regs = t.regs ∧ u.pc = t.pc ∧ u.mem = t.mem ∧
      u.status = t.status := by
  cases i with
  | hlt => exact finish_agreeButOut (s := s) other (.ok _ _) h
  | ldi a b =>
    exact finish_agreeButOut other
      (agreeButOut_bind _ fun k => agreeButOut_bind (useByte b) fun v => .ok _ _) h
  | prn a => exact finish_agreeButOut other (agreeButOut_bind _ fun k => .ok _ _) h
  | add | sub | mul => exact aluHandler_otherOut other h
  | push a =>
    refine finish_agreeButOut other (agreeButOut_bind _ fun k => ?_) h
    rw [storeTop_eq, storeTop_eq]
    exact .ok _ _
  | pop a =>
    exact finish_agreeButOut other
      (agreeButOut_bind _ fun k => agreeButOut_bind (loadTop s) fun v => .ok _ _) h
  | call a =>
    refine finish_agreeButOut other
      (agreeButOut_bind _ fun k => agreeButOut_bind (returnAddress s.pc) fun v => ?_) h
    rw [storeTop_eq, storeTop_eq]
    exact .ok _ _
  | ret => exact finish_agreeButOut other (agreeButOut_bind (loadTop s) fun v => .ok _ _) h

/-! Refusals (R41, R76). -/

theorem stepWith_of_refusal {c : Config} {s : State} {r : Refusal} (h : stepRefusal c s = some r) :
    stepWith c s = .refused r := by
  simp only [stepWith, h]

theorem stepRefusal_notRunning {c : Config} {s : State} (hc : c.valid = true)
    (hs : s.status ≠ .running) : stepRefusal c s = some .notRunning := by
  cases h : s.status with
  | running => exact absurd h hs
  | halted r => simp [stepRefusal, hc, h]
  | faulted cause n => simp [stepRefusal, hc, h]

/-- SUB_OPCODE on an assigned byte is not admitted (R76). -/
theorem valid_eq_false_of_assigned {c : Config} {b : Byte} (hb : c.subOpcode = some b)
    (assigned : b ∈ opcodeTable.map Prod.fst) : c.valid = false := by
  simp [Config.valid, hb, assigned, -List.mem_map]

theorem stepRefusal_configuration {c : Config} (hc : c.valid = false) (s : State) :
    stepRefusal c s = some .configuration := by
  simp [stepRefusal, hc]

/-! What the status says of the state, for each way a step ends a run. -/

@[simp] theorem takeFault_byteAt (e : Raised) (s : State) (a : Nat) :
    (takeFault e s).byteAt a = s.byteAt a := rfl

theorem statusTrue_of_running {c : Config} {s : State} (h : s.status = .running) : s.statusTrue c := by
  simp [State.statusTrue, h]

theorem takeFault_statusTrue_of_address {c : Config} {s : State} {e : Raised}
    (hc : e.cause = .addressOutOfRange) (gt : 256 ≤ e.info) (ge : s.pc ≤ e.info)
    (le : e.info ≤ s.pc + 2) : (takeFault e s).statusTrue c := by
  simpa [State.statusTrue, hc] using ⟨gt, ge, le⟩

theorem takeFault_statusTrue_of_register {c : Config} {s : State} {e : Raised} {x : Nat}
    (hc : e.cause = .registerOutOfRange) (ge : 8 ≤ e.info) (hx : x = s.pc + 1 ∨ x = s.pc + 2)
    (hi : e.info = (s.byteAt x).toNat) : (takeFault e s).statusTrue c := by
  obtain rfl | rfl := hx
  · simpa [State.statusTrue, hc] using ⟨ge, .inl hi⟩
  · simpa [State.statusTrue, hc] using ⟨ge, .inr hi⟩

/-! The operands a handler gets are what the fetch read after the opcode. -/

/-- A handler names no operand but the two it is given (R73). -/
theorem instr_operands_subset (m : Mnemonic) (a b : Operand) : (m.instr a b).operands ⊆ [a, b] := by
  cases m <;> simp [Mnemonic.instr, Instr.operands]

theorem fetched_operand {c : Config} {s : State} {f : Fetched} {m : Mnemonic} {o : Operand}
    (hf : fetch c s = .ok f) (ho : o ∈ (m.instr f.a f.b).operands) :
    ∃ x, (x = s.pc + 1 ∨ x = s.pc + 2) ∧ operandAt c x s = .ok o := by
  obtain ⟨-, -, ha, hb⟩ := fetch_ok hf
  have two : o = f.a ∨ o = f.b := by
    simpa using instr_operands_subset m f.a f.b ho
  obtain rfl | rfl := two
  · exact ⟨_, .inl rfl, ha⟩
  · exact ⟨_, .inr rfl, hb⟩

theorem operandAt_absent {c : Config} {s : State} {x p : Nat} (h : operandAt c x s = .ok (.absent p)) :
    p = x ∧ 256 ≤ x := by
  obtain ⟨-, h'⟩ | ⟨-, -, h'⟩ | ⟨gt, -, h'⟩ := operandAt_cases c x s
  · cases h'.symm.trans h
  · cases h'.symm.trans h
  · cases h'.symm.trans h; exact ⟨rfl, gt⟩

theorem operandAt_present {c : Config} {s : State} {x : Nat} {v : Byte}
    (h : operandAt c x s = .ok (.present v)) : v = s.byteAt x := by
  obtain ⟨-, h'⟩ | ⟨-, -, h'⟩ | ⟨-, -, h'⟩ := operandAt_cases c x s
  · cases h'.symm.trans h; rfl
  · cases h'.symm.trans h
  · cases h'.symm.trans h

/-- A condition that a handler raises on fetched operands is true of the bytes after the opcode
(R201, R202). -/
theorem takeFault_statusTrue_of_handler {c : Config} {s : State} {f : Fetched} {m : Mnemonic}
    {e : Raised} (hf : fetch c s = .ok f) (he : HandlerRaises s (m.instr f.a f.b) e) :
    (takeFault e s).statusTrue c := by
  obtain ⟨hc, ho | ⟨-, hi, gt⟩⟩ | ⟨hc, v, ho, ge, hi⟩ := he
  · obtain ⟨x, hx, hop⟩ := fetched_operand hf ho
    obtain ⟨hi, gt⟩ := operandAt_absent hop
    exact takeFault_statusTrue_of_address hc (by omega) (by omega) (by omega)
  · exact takeFault_statusTrue_of_address hc gt (by omega) (by omega)
  · obtain ⟨x, hx, hop⟩ := fetched_operand hf ho
    obtain rfl := operandAt_present hop
    exact takeFault_statusTrue_of_register hc (by omega) hx hi

/-! The dispatch table: only the byte 0x01 is HLT (R75). -/

/-- A handler that is found stands in the table at the opcode. -/
theorem mem_of_lookup {rows : List (Byte × Mnemonic)} {op : Byte} {m : Mnemonic}
    (h : lookup rows op = some m) : (op, m) ∈ rows := by
  induction rows with
  | nil => cases h
  | cons row rest ih =>
    obtain ⟨b, n⟩ := row
    unfold lookup at h
    split at h
    · next e => cases h; rw [e]; exact List.mem_cons_self
    · exact List.mem_cons_of_mem _ (ih h)

theorem opcode_of_lookup_hlt {c : Config} {op : Byte} (h : lookup (dispatchTable c) op = some .hlt) :
    op = 0x01#8 := by
  simpa [dispatchTable, opcodeTable] using mem_of_lookup h

theorem mnemonic_eq_of_instr_hlt {m : Mnemonic} {a b : Operand} (h : m.instr a b = .hlt) : m = .hlt := by
  cases m with
  | hlt => rfl
  | _ => cases h

/-- The status after a handler that a step runs is true of the instruction at pc. -/
theorem exec_statusTrue {c : Config} {s t : State} {f : Fetched} {m : Mnemonic}
    (running : s.status = .running) (hf : fetch c s = .ok f)
    (hl : lookup (dispatchTable c) f.opcode = some m) (h : exec (m.instr f.a f.b) s = .next t) :
    t.statusTrue c := by
  obtain same | ⟨hi, rfl⟩ | ⟨e, he, rfl⟩ := exec_status_cases h
  · exact statusTrue_of_running (same.trans running)
  · obtain rfl := mnemonic_eq_of_instr_hlt hi
    obtain ⟨le, hop, -, -⟩ := fetch_ok hf
    exact ⟨le, hop.symm.trans (opcode_of_lookup_hlt hl)⟩
  · exact takeFault_statusTrue_of_handler hf he

/-- Every step keeps the invariant: each of the three ways a step goes keeps memory canonical and pc at
most 258, and records a status that is true. -/
theorem stepWith_keeps_inv {c : Config} {s t : State} (inv : s.Inv c) (h : stepWith c s = .next t) :
    t.Inv c := by
  obtain ⟨wf, le, -⟩ := inv
  obtain ⟨-, running⟩ := step_running h
  obtain ⟨e, hf, rfl⟩ | ⟨f, hf, hl, rfl⟩ | ⟨f, m, hf, hl, h⟩ := step_cases h
  · obtain ⟨hc, gt, ge, le'⟩ := fetch_error hf
    exact ⟨wf, le, takeFault_statusTrue_of_address hc gt ge le'⟩
  · obtain ⟨low, hop, -, -⟩ := fetch_ok hf
    exact ⟨wf, le, rfl, low, hop.symm, hl⟩
  · obtain ⟨low, -, -, -⟩ := fetch_ok hf
    exact ⟨exec_keeps_wf h wf, exec_pc_le h low, exec_statusTrue running hf hl h⟩

end Sys2Proof.Machine

namespace Sys2Proof.Proofs
open Sys2Proof.Machine

/-- Settles O57: the invariant of every configuration, and so of the reference configuration. -/
theorem stepKeepsTheInvariant : Obligations.StepKeepsTheInvariant :=
  ⟨fun _ _ _ => stepWith_keeps_inv, fun _ _ => stepWith_keeps_inv⟩

/-- Settles O48: the frame of the output by inversion of exec, and the independence of it by agreement of
the handlers run from two states that differ in it. -/
theorem onlyPrnTouchesTheOutput : Obligations.OnlyPrnTouchesTheOutput := by
  refine ⟨rfl, fun _ _ _ h ne => exec_out_of_ne_prn h ne, ?_, fun _ _ _ other h => exec_otherOut other h⟩
  intro s t a _ h running
  cases exec_cases h with
  | fault => cases running
  | prn k => exact ⟨s.reg k, rfl⟩

/-- Settles O49: the OUT events are what the output grows by, one byte for PRN and nothing otherwise. -/
theorem outEventsOfAStep : Obligations.OutEventsOfAStep := by
  constructor
  · intro s r lt
    exact ⟨_, exec_prn lt, List.drop_left⟩
  · intro i s t h ne
    rw [outEvents, exec_out_of_ne_prn h ne, List.drop_length]

/-- Settles O51: a register that differs is one the instruction's effect writes. -/
theorem registersAnInstructionWrites : Obligations.RegistersAnInstructionWrites := by
  intro i s t k h ne
  cases exec_cases h with
  | fault | hlt | prn => exact absurd rfl ne
  | ldi | add | sub | mul => rw [eq_of_setReg_reg_ne ne, namesReg]
  | push | call | ret => exact eq_of_setReg_reg_ne ne
  | pop d =>
    by_cases sp : k = 7
    · exact .inr sp
    · have ne' : (s.setReg d (s.byteAt s.sp.toNat)).reg k ≠ s.reg k := by
        simpa [sp] using ne
      exact .inl (by rw [eq_of_setReg_reg_ne ne', namesReg])

/-- Settles O52: each instruction's own effect, where a status other than Running is a fatal condition or
HLT, both of which keep pc. -/
theorem nextPcOfEachInstruction : Obligations.NextPcOfEachInstruction := by
  intro i s t running h
  cases exec_cases h with
  | fault | hlt => exact ⟨fun _ => rfl, nofun⟩
  | call k _ => exact ⟨fun ended => absurd running ended, fun _ => ⟨k, rfl, rfl⟩⟩
  | _ => exact ⟨fun ended => absurd running ended, fun _ => rfl⟩

/-- Settles O1: MEM_INIT is in memory alone, so the registers are those of `State.reset`. -/
theorem resetRegistersAndEntryPoint : Obligations.ResetRegistersAndEntryPoint := by
  rintro memInit s (rfl | rfl)
  · exact ⟨reset_reg_le, rfl, rfl, rfl⟩
  · refine ⟨fun k le => ?_, ?_, resetWith_pc memInit, resetWith_status memInit⟩
    · rw [resetWith_reg, reset_reg_le k le]
    · exact (resetWith_reg memInit 7).trans rfl

/-- Settles O4: LOAD is the checked write, so the law of a read after a write says what it changes. -/
theorem loadPortWritesOneByte : Obligations.LoadPortWritesOneByte := by
  intro s addr data wf
  refine ⟨fun le => ⟨_, loadPort_le le data s, ?_, fun a ne => ?_, fun _ => rfl, rfl, rfl, rfl⟩,
    fun gt => loadPort_gt gt data s⟩
  · rw [setByte_byteAt wf, if_pos rfl]
  · rw [setByte_byteAt wf, if_neg ne]

/-- Settles O6: one case for each status. -/
theorem readbackOnlyWhenOver : Obligations.ReadbackOnlyWhenOver := by
  intro s
  cases h : s.status with
  | running => exact ⟨fun _ => by simp only [readback, h], fun ended => absurd rfl ended⟩
  | halted r => exact ⟨nofun, fun _ => by simp only [readback, h]⟩
  | faulted cause n => exact ⟨nofun, fun _ => by simp only [readback, h]⟩

/-- Settles O10: the refusals come before the fetch, and the configuration's before the status's. -/
theorem stepRefusedUnlessRunningAndConfigured : Obligations.StepRefusedUnlessRunningAndConfigured := by
  intro c s
  refine ⟨fun hc hs => stepWith_of_refusal (stepRefusal_notRunning hc hs),
    fun hs => stepWith_of_refusal (stepRefusal_notRunning rfl hs), fun b hb assigned => ?_⟩
  exact stepWith_of_refusal (stepRefusal_configuration (valid_eq_false_of_assigned hb assigned) s)

end Sys2Proof.Proofs
end

section
/-! PROOFS. Memory (spec/20_memory.md): the checked primitives, the one byte a PUSH or a CALL stores, and
what a fetch delivers of it. -/

namespace Sys2Proof.Machine

/-! Reads of one byte. -/

/-- A checked read depends on the byte at its address alone (R51). -/
theorem memRead_congr {s t : State} {a : Nat} (h : s.byteAt a = t.byteAt a) :
    memRead a s = memRead a t := by
  simp only [memRead, h]

@[simp] theorem setPc_byteAt (s : State) (n a : Nat) : (s.setPc n).byteAt a = s.byteAt a := rfl

@[simp] theorem advance_byteAt (s : State) (n a : Nat) : (s.advance n).byteAt a = s.byteAt a := rfl

/-- After a push of a byte, memory holds it at the decremented SP and every other byte as before
(R52, R162). -/
theorem push_byteAt {s : State} (wf : s.mem.wf = true) (v : Byte) (a : Nat) :
    ((decSp s).setByte (decSp s).sp.toNat v).byteAt a =
      if a = (decSp s).sp.toNat then v else s.byteAt a :=
  setByte_byteAt (s := decSp s) wf _ v a

/-- The byte that a push stored (R61). -/
theorem push_byteAt_sp {s : State} (wf : s.mem.wf = true) (v : Byte) :
    ((decSp s).setByte (decSp s).sp.toNat v).byteAt (decSp s).sp.toNat = v :=
  (push_byteAt wf v _).trans (if_pos rfl)

/-- An exact result that fits a byte is kept (R7). -/
theorem narrow_toNat_le {n : Nat} (le : n ≤ 255) : (narrow n).toNat = n :=
  BitVec.toNat_ofNat n 8 |>.trans (Nat.mod_eq_of_lt (Nat.lt_succ_of_le le))

/-! PUSH and CALL of a register that exists. -/

/-- PUSH stores its register, read after the decrement, and advances pc by 2 (R163). -/
theorem exec_push {s : State} {r : Byte} (h : r.toNat < 8) :
    exec (.push (.present r)) s =
      .next (((decSp s).setByte (decSp s).sp.toNat ((decSp s).reg ⟨r.toNat, h⟩)).advance 2) := by
  simp [exec, execPush, useReg_lt h]

/-- CALL stores the return address and goes to its register, read after the decrement (R182). -/
theorem exec_call {s : State} {r : Byte} (h : r.toNat < 8) (le : s.pc + 2 ≤ 255) :
    exec (.call (.present r)) s =
      .next (((decSp s).setByte (decSp s).sp.toNat (narrow (s.pc + 2))).setPc
        ((decSp s).reg ⟨r.toNat, h⟩).toNat) := by
  simp [exec, execCall, useReg_lt h, returnAddress_le le]

/-- Only PUSH and CALL write memory (R52). -/
theorem exec_mem_of_ne_push_call {i : Instr} {s t : State} (h : exec i s = .next t)
    (notPush : i.mnemonic ≠ .push) (notCall : i.mnemonic ≠ .call) : t.mem = s.mem := by
  cases exec_cases h with
  | push => exact absurd rfl notPush
  | call => exact absurd rfl notCall
  | _ => rfl

/-- No instruction changes a byte but the one at the decremented SP (R52). -/
theorem exec_sameMemoryBut {i : Instr} {s t : State} (h : exec i s = .next t) (wf : s.mem.wf = true) :
    SameMemoryBut (decSp s).sp.toNat s t := by
  intro a ne
  cases exec_cases h with
  | push | call => exact (push_byteAt wf _ a).trans (if_neg ne)
  | _ => rfl

/-! What a fetch delivers. -/

/-- A fetch delivers the byte at an address of the memory in whichever of its three places reads it
(R61, R101, R102). -/
theorem fetch_delivers {c : Config} {s : State} {f : Fetched} (hf : fetch c s = .ok f) {a : Nat}
    (le : a ≤ 255) :
    (s.pc = a → f.opcode = s.byteAt a) ∧ (s.pc + 1 = a → f.a = .present (s.byteAt a)) ∧
      (s.pc + 2 = a → f.b = .present (s.byteAt a)) := by
  obtain ⟨-, hop, ha, hb⟩ := fetch_ok hf
  refine ⟨?_, ?_, ?_⟩
  · rintro rfl; exact hop
  · rintro rfl; exact Except.ok.inj (ha.symm.trans (operandAt_le le c s))
  · rintro rfl; exact Except.ok.inj (hb.symm.trans (operandAt_le le c s))

/-- At 254, where the policy allows it, operand_b is absent (R102). -/
theorem fetch_254_ifUsed {c : Config} {s : State} (hpc : s.pc = 254)
    (hc : c.operandFetchOob = .faultIfUsed) :
    fetch c s = .ok ⟨s.byteAt s.pc, .present (s.byteAt (s.pc + 1)), .absent (s.pc + 2)⟩ := by
  have opcode : s.pc ≤ 255 := by omega
  have a : s.pc + 1 ≤ 255 := by omega
  have b : 255 < s.pc + 2 := by omega
  simp [fetch, memRead_le opcode, operandAt_le a, operandAt_gt_ifUsed b hc]

/-- Where a two-byte instruction can run, the fetch delivers its opcode and its operand byte. -/
theorem fetch_two_bytes {c : Config} {s : State}
    (h : s.pc ≤ 253 ∨ (s.pc = 254 ∧ c.operandFetchOob = .faultIfUsed)) :
    ∃ b, fetch c s = .ok ⟨s.byteAt s.pc, .present (s.byteAt (s.pc + 1)), b⟩ := by
  obtain low | ⟨top, hc⟩ := h
  · exact ⟨_, fetch_low (Nat.add_le_add_right low 2) c⟩
  · exact ⟨_, fetch_254_ifUsed top hc⟩

/-- There a step runs the handler of the opcode byte with the operand byte as fetched (R62, R104). -/
theorem step_two_bytes {c : Config} {s : State} {op : Byte} {m : Mnemonic} (hc : c.valid = true)
    (hs : s.status = .running) (h : s.pc ≤ 253 ∨ (s.pc = 254 ∧ c.operandFetchOob = .faultIfUsed))
    (hop : s.byteAt s.pc = op) (hl : lookup (dispatchTable c) op = some m) :
    ∃ b, stepWith c s = exec (m.instr (.present (s.byteAt (s.pc + 1))) b) s := by
  subst hop
  obtain ⟨b, hf⟩ := fetch_two_bytes h
  exact ⟨b, step_of_lookup hc hs hf hl⟩

end Sys2Proof.Machine

namespace Sys2Proof.Proofs
open Sys2Proof.Machine

/-- Settles O50: the inversion of exec, where PUSH and CALL alone store, at the decremented SP. -/
theorem onlyPushAndCallWriteMemory : Obligations.OnlyPushAndCallWriteMemory :=
  fun _ _ _ h => ⟨exec_mem_of_ne_push_call h, exec_sameMemoryBut h⟩

/-- Settles O54: PUSH and CALL leave x at the decremented SP, which is an address of the memory, and a
fetch delivers the byte it finds there. -/
theorem fetchSeesTheStoredByte : Obligations.FetchSeesTheStoredByte := by
  intro c s t i r x h f n wf stores he hf
  have stored : t.byteAt (decSp s).sp.toNat = x := by
    obtain ⟨rfl, rfl⟩ | ⟨rfl, hx⟩ := stores
    · cases (exec_push h).symm.trans he
      rw [advance_byteAt, push_byteAt_sp wf]
    · have le : s.pc + 2 ≤ 255 := hx ▸ byte_le x
      cases (exec_call h le).symm.trans he
      rw [setPc_byteAt, push_byteAt_sp wf]
      exact BitVec.eq_of_toNat_eq ((narrow_toNat_le le).trans hx.symm)
  rw [← stored]
  exact fetch_delivers hf (byte_le _)

/-- Settles O55: the operand byte is fetched before the store, so wherever the store falls the handler
runs with the byte r that memory held at pc + 1. -/
theorem stepUsesTheOperandsItFetched : Obligations.StepUsesTheOperandsItFetched := by
  intro c s r h hc hs wf hr _
  subst hr
  constructor
  · intro hop hpc
    obtain ⟨_, run⟩ := step_two_bytes hc hs hpc hop (m := .push) rfl
    exact ⟨_, run.trans (exec_push h), push_byteAt_sp wf _, rfl, hs⟩
  · intro hop hpc
    have le : s.pc + 2 ≤ 255 := Nat.add_le_add_right hpc 2
    obtain ⟨_, run⟩ := step_two_bytes hc hs (.inl hpc) hop (m := .call) rfl
    refine ⟨_, run.trans (exec_call h le), ?_, rfl, hs⟩
    rw [setPc_byteAt, push_byteAt_sp wf, narrow_toNat_le le]

/-- Settles O8: a checked access at an address of the memory is the access itself, and the law of a read
after a write says what the written state answers. -/
theorem memoryPrimitivesActOnOneByte : Obligations.MemoryPrimitivesActOnOneByte := by
  intro s a v wf
  refine ⟨fun le => memRead_le le s, fun gt => memRead_gt gt s, fun le => ?_, fun gt => memWrite_gt gt v s⟩
  refine ⟨_, memWrite_le le v s, ?_, fun b ne => memRead_congr ?_, fun _ => rfl, rfl, rfl, rfl⟩
  · rw [memRead_le le, setByte_byteAt wf, if_pos rfl]
  · rw [setByte_byteAt wf, if_neg ne]

end Sys2Proof.Proofs
end

section
/-! PROOFS. Encoding (spec/30_encoding.md): the tables as sets of rows, the encoder and the decoder as the
same relation between bytes and instructions, and the count of the unassigned bytes. -/

namespace Sys2Proof.Machine

/-! The two searches of a table are the library's `List.lookup`, by opcode and by mnemonic, and where no
key is listed twice a search finds exactly the rows. -/

theorem listLookup_cons {α β : Type} [DecidableEq α] (a k : α) (w : β) (rest : List (α × β)) :
    ((k, w) :: rest).lookup a = if a = k then some w else rest.lookup a := by
  by_cases e : a = k
  · simp [e]
  · simp [List.lookup_cons, beq_false_of_ne e, e]

theorem lookup_eq_listLookup (rows : List (Byte × Mnemonic)) (op : Byte) :
    lookup rows op = rows.lookup op := by
  induction rows with
  | nil => rfl
  | cons row rest ih => rw [lookup, listLookup_cons, ih]

theorem opcodeFor_eq_listLookup (rows : List (Byte × Mnemonic)) (m : Mnemonic) :
    opcodeFor rows m = (rows.map Prod.swap).lookup m := by
  induction rows with
  | nil => rfl
  | cons row rest ih => rw [opcodeFor, List.map_cons, Prod.swap, listLookup_cons, ih]

theorem listLookup_eq_some_iff_mem {α β : Type} [DecidableEq α] {rows : List (α × β)}
    (once : (rows.map Prod.fst).Nodup) {a : α} {b : β} : rows.lookup a = some b ↔ (a, b) ∈ rows := by
  induction rows with
  | nil => simp
  | cons row rest ih =>
    obtain ⟨k, w⟩ := row
    obtain ⟨new, once⟩ := List.nodup_cons.1 once
    rw [listLookup_cons, List.mem_cons, ← ih once]
    by_cases e : a = k
    · have unlisted : rest.lookup a ≠ some b := fun h =>
        new (List.mem_map.2 ⟨_, (ih once).1 h, e⟩)
      simp [e, e ▸ unlisted, eq_comm]
    · simp [e]

theorem lookup_eq_none_iff {rows : List (Byte × Mnemonic)} {op : Byte} :
    lookup rows op = none ↔ op ∉ rows.map Prod.fst := by
  simp only [lookup_eq_listLookup, List.lookup_eq_none_iff, bne_iff_ne, List.mem_map, not_exists, not_and]
  exact forall₂_congr fun _ _ => ne_comm

/-! The dispatch table: the nine rows of R75, and SUB's when it is wired (R76). -/

theorem mem_dispatchTable {c : Config} {op : Byte} {m : Mnemonic} :
    (op, m) ∈ dispatchTable c ↔ (op, m) ∈ opcodeTable ∨ (c.subOpcode = some op ∧ m = .sub) := by
  simp [dispatchTable, eq_comm]

theorem dispatchTable_opcodes (c : Config) :
    (dispatchTable c).map Prod.fst = opcodeTable.map Prod.fst ++ c.subOpcode.toList := by
  cases h : c.subOpcode <;> simp [dispatchTable, h]

theorem opcodeTable_opcodes_nodup : (opcodeTable.map Prod.fst).Nodup := by decide

/-- SUB_OPCODE is admitted only where it leaves no byte listed twice. -/
theorem dispatchTable_opcodes_nodup {c : Config} (hc : c.valid = true) :
    ((dispatchTable c).map Prod.fst).Nodup := by
  rw [dispatchTable_opcodes]
  cases h : c.subOpcode with
  | none => simpa using opcodeTable_opcodes_nodup
  | some b =>
    have fresh : b ∉ opcodeTable.map Prod.fst := by
      simpa [Config.valid, h, -List.mem_map] using hc
    exact List.nodup_append_comm.1 (List.nodup_cons.2 ⟨fresh, opcodeTable_opcodes_nodup⟩)

theorem dispatchTable_mnemonics_nodup (c : Config) :
    (((dispatchTable c).map Prod.swap).map Prod.fst).Nodup := by
  cases h : c.subOpcode <;> simp [dispatchTable, opcodeTable, h]

theorem lookup_dispatchTable {c : Config} (hc : c.valid = true) {op : Byte} {m : Mnemonic} :
    lookup (dispatchTable c) op = some m ↔ (op, m) ∈ dispatchTable c := by
  rw [lookup_eq_listLookup, listLookup_eq_some_iff_mem (dispatchTable_opcodes_nodup hc)]

theorem opcodeFor_dispatchTable {c : Config} {m : Mnemonic} {op : Byte} :
    opcodeFor (dispatchTable c) m = some op ↔ (op, m) ∈ dispatchTable c := by
  rw [opcodeFor_eq_listLookup, listLookup_eq_some_iff_mem (dispatchTable_mnemonics_nodup c)]
  simp

/-- An assigned byte keeps its handler in every configuration, admitted or not: its row comes first. -/
theorem lookup_of_mem_opcodeTable {op : Byte} {m : Mnemonic} (h : (op, m) ∈ opcodeTable) (c : Config) :
    lookup (dispatchTable c) op = some m := by
  have found := (listLookup_eq_some_iff_mem opcodeTable_opcodes_nodup).2 h
  simp [lookup_eq_listLookup, dispatchTable, List.lookup_append, found]

/-- SUB is the one mnemonic that the opcode table leaves without a byte. -/
theorem exists_mem_opcodeTable_iff {m : Mnemonic} : (∃ op, (op, m) ∈ opcodeTable) ↔ m ≠ .sub := by
  cases m <;> simp [opcodeTable]

theorem sub_mem_dispatchTable {c : Config} {op : Byte} :
    (op, .sub) ∈ dispatchTable c ↔ c.subOpcode = some op := by
  have unlisted : (op, .sub) ∉ opcodeTable := fun h => exists_mem_opcodeTable_iff.1 ⟨op, h⟩ rfl
  simp [mem_dispatchTable, unlisted]

theorem exists_mem_dispatchTable_iff {c : Config} {m : Mnemonic} :
    (∃ op, (op, m) ∈ dispatchTable c) ↔ (m = .sub → c.subOpcode ≠ none) := by
  by_cases h : m = .sub
  · simp [h, sub_mem_dispatchTable, Option.ne_none_iff_exists']
  · simp [h, mem_dispatchTable, exists_mem_opcodeTable_iff]

/-! An instruction is its mnemonic and its operands. -/

theorem width_eq (i : Instr) : i.width = i.operands.length + 1 := by
  cases i <;> rfl

@[simp] theorem instr_mnemonic (m : Mnemonic) (a b : Operand) : (m.instr a b).mnemonic = m := by
  cases m <;> rfl

theorem mnemonic_instr_eq {i : Instr} {a b : Operand}
    (h : (i.mnemonic.instr a b).operands = i.operands) : i.mnemonic.instr a b = i := by
  cases i with
  | hlt | ret => rfl
  | _ => simpa [Instr.mnemonic, Mnemonic.instr, Instr.operands] using h

/-! Operands as bytes. -/

theorem operandBytes_eq_some_iff {os : List Operand} {args : List Byte} :
    operandBytes os = some args ↔ os = args.map .present := by
  induction os generalizing args with
  | nil => cases args <;> simp [operandBytes]
  | cons o rest ih =>
    cases o with
    | absent p => cases args <;> simp [operandBytes]
    | present v => cases args <;> simp [operandBytes, ih, and_comm]

theorem operandBytes_isSome (os : List Operand) : (operandBytes os).isSome = os.all Operand.isByte := by
  induction os with
  | nil => rfl
  | cons o rest ih => cases o <;> simp [operandBytes, Operand.isByte, ih]

/-- An instruction is well formed exactly when its operands are bytes (R70, R71). -/
theorem wf_iff {i : Instr} : i.wf = true ↔ ∃ args : List Byte, i.operands = args.map .present := by
  have wf_eq : i.wf = (operandBytes i.operands).isSome := by
    rw [operandBytes_isSome]
    cases i <;> simp [Instr.wf, Instr.operands]
  simp only [wf_eq, Option.isSome_iff_exists, operandBytes_eq_some_iff]

theorem operandOf_eq_present_iff {bytes : List Byte} {k : Nat} {v : Byte} :
    operandOf bytes k = .present v ↔ bytes[k]? = some v := by
  unfold operandOf
  cases bytes[k]? <;> simp

/-- A handler keeps as many of the bytes after the opcode as its width counts (R71, R73). -/
theorem instr_operandOf_operands (m : Mnemonic) (bytes : List Byte) :
    (m.instr (operandOf bytes 0) (operandOf bytes 1)).operands =
      (List.range (m.width - 1)).map (operandOf bytes) := by
  cases m <;> rfl

/-- The places after an opcode hold bytes exactly when the byte string starts with those bytes. -/
theorem map_operandOf_eq_iff {bytes args : List Byte} {n : Nat} :
    (List.range n).map (operandOf bytes) = args.map .present ↔ args.length = n ∧ args <+: bytes := by
  simp only [List.ext_getElem_iff, List.length_map, List.length_range, List.getElem_map,
    List.getElem_range, operandOf_eq_present_iff, List.prefix_iff_getElem?]
  constructor
  · rintro ⟨rfl, h⟩
    exact ⟨rfl, fun k lt => h k lt lt⟩
  · rintro ⟨rfl, h⟩
    exact ⟨rfl, fun k _ lt => h k lt⟩

/-! The encoder and the decoder, each as what its bytes are. -/

theorem encode_eq_some_iff {c : Config} {i : Instr} {bytes : List Byte} :
    encode c i = some bytes ↔ ∃ op args, bytes = op :: args ∧ (op, i.mnemonic) ∈ dispatchTable c ∧
      i.operands = args.map .present := by
  have cases_opcode : encode c i = some bytes ↔ ∃ op, opcodeFor (dispatchTable c) i.mnemonic = some op ∧
      ∃ args, operandBytes i.operands = some args ∧ op :: args = bytes := by
    unfold encode
    cases opcodeFor (dispatchTable c) i.mnemonic <;> simp
  simp only [cases_opcode, opcodeFor_dispatchTable, operandBytes_eq_some_iff]
  constructor
  · rintro ⟨op, hop, args, hargs, rfl⟩
    exact ⟨op, args, rfl, hop, hargs⟩
  · rintro ⟨op, args, rfl, hop, hargs⟩
    exact ⟨op, hop, args, hargs, rfl⟩

theorem decodeBytes_of_unknown {c : Config} {op : Byte} (hl : lookup (dispatchTable c) op = none)
    (tail : List Byte) : decodeBytes c (op :: tail) = .error (.unknownOpcode op) := by
  simp only [decodeBytes, decode, hl]

theorem decodeBytes_of_lookup {c : Config} {op : Byte} {m : Mnemonic}
    (hl : lookup (dispatchTable c) op = some m) {tail : List Byte} {i : Instr}
    (hi : m.instr (operandOf tail 0) (operandOf tail 1) = i) :
    decodeBytes c (op :: tail) =
      if i.wf then .ok (i, tail.drop i.operands.length) else .error .truncated := by
  simp only [decodeBytes, decode, hl, hi, width_eq, Nat.add_sub_cancel]

/-- Bytes that decode to an instruction are its opcode, its operands and what is left over. -/
theorem bytes_of_decodeBytes {c : Config} {i : Instr} {bytes rest : List Byte}
    (h : decodeBytes c bytes = .ok (i, rest)) :
    ∃ op args, bytes = op :: (args ++ rest) ∧ (op, i.mnemonic) ∈ dispatchTable c ∧
      i.operands = args.map .present := by
  cases bytes with
  | nil => cases h
  | cons op tail =>
    cases hl : lookup (dispatchTable c) op with
    | none => cases (decodeBytes_of_unknown hl tail).symm.trans h
    | some m =>
      rw [decodeBytes_of_lookup hl rfl] at h
      split at h
      · next wf =>
        cases h
        obtain ⟨args, hargs⟩ := wf_iff.1 wf
        obtain ⟨-, rest, rfl⟩ :=
          map_operandOf_eq_iff.1 ((instr_operandOf_operands m tail).symm.trans hargs)
        refine ⟨op, args, by simp [hargs], ?_, hargs⟩
        rw [instr_mnemonic]
        exact mem_of_lookup hl
      · cases h

/-- The opcode of an instruction and its operands decode to it, whatever follows. -/
theorem decodeBytes_of_bytes {c : Config} (hc : c.valid = true) {i : Instr} {op : Byte}
    {args : List Byte} (hop : (op, i.mnemonic) ∈ dispatchTable c) (hargs : i.operands = args.map .present)
    (rest : List Byte) : decodeBytes c (op :: (args ++ rest)) = .ok (i, rest) := by
  have hi : i.mnemonic.instr (operandOf (args ++ rest) 0) (operandOf (args ++ rest) 1) = i := by
    have len : args.length = i.width - 1 := by simp [width_eq, hargs]
    apply mnemonic_instr_eq
    rw [instr_operandOf_operands, hargs, map_operandOf_eq_iff]
    exact ⟨len, List.prefix_append _ _⟩
  rw [decodeBytes_of_lookup ((lookup_dispatchTable hc).2 hop) hi, if_pos (wf_iff.2 ⟨args, hargs⟩)]
  simp [hargs]

/-! The unassigned bytes (R78). -/

/-- Of the 256 byte values, those that a list of distinct bytes leaves out: the listed values are the
list's own bytes in another order. -/
theorem length_filter_unlisted {bytes : List Byte} (once : bytes.Nodup) :
    ((List.range 256).filter fun n => BitVec.ofNat 8 n ∉ bytes).length = 256 - bytes.length := by
  have listed : ((List.range 256).filter fun n => BitVec.ofNat 8 n ∈ bytes).Perm
      (bytes.map BitVec.toNat) := by
    refine (List.perm_ext_iff_of_nodup (List.nodup_range.filter _)
      (once.map fun _ _ => BitVec.eq_of_toNat_eq)).2 fun n => ?_
    simp only [List.mem_filter, List.mem_range, decide_eq_true_eq, List.mem_map]
    constructor
    · rintro ⟨lt, h⟩
      exact ⟨_, h, (BitVec.toNat_ofNat n 8).trans (Nat.mod_eq_of_lt lt)⟩
    · rintro ⟨b, h, rfl⟩
      exact ⟨b.isLt, by simpa using h⟩
  have total := (List.range 256).length_eq_length_filter_add fun n => decide (BitVec.ofNat 8 n ∈ bytes)
  simp only [List.length_range, listed.length_eq, List.length_map, ← decide_not] at total
  omega

end Sys2Proof.Machine

namespace Sys2Proof.Proofs
open Sys2Proof.Machine

/-- Settles O28: the bytes of an instruction are its opcode's row and its operands, which decode to it. -/
theorem decodeOfEncodeIsTheInstruction : Obligations.DecodeOfEncodeIsTheInstruction := by
  intro c i bytes rest hc h
  obtain ⟨op, args, rfl, hop, hargs⟩ := encode_eq_some_iff.1 h
  exact decodeBytes_of_bytes hc hop hargs rest

/-- Settles O29: what the decoder read is a row's opcode and the operands, which are the bytes that the
encoder gives, as many as the width. -/
theorem encodeOfDecodeIsTheBytes : Obligations.EncodeOfDecodeIsTheBytes := by
  intro c i bytes rest _ h
  obtain ⟨op, args, rfl, hop, hargs⟩ := bytes_of_decodeBytes h
  have encoded : encode c i = some (op :: args) := encode_eq_some_iff.2 ⟨op, args, rfl, hop, hargs⟩
  exact ⟨_, encoded, rfl, (Laws.EncodedLength.encode_length encoded).trans (width_eq i).symm⟩

/-- Settles O25: a byte selects SUB when it stands in SUB's row, and SUB's only row is SUB_OPCODE's. -/
theorem subSelectedOnlyByItsParameter : Obligations.SubSelectedOnlyByItsParameter := by
  refine ⟨fun c op unset h => ?_, fun c b op hc hb => ?_, fun c b x y hc hb => ?_, rfl⟩
  · cases unset.symm.trans (sub_mem_dispatchTable.1 (mem_of_lookup h))
  · simp [lookup_dispatchTable hc, sub_mem_dispatchTable, hb, eq_comm]
  · have found := (lookup_dispatchTable hc).2 (sub_mem_dispatchTable.2 hb)
    simp only [decode, found, Mnemonic.instr]

/-- Settles O26: the unassigned bytes are those the table does not list, and it lists each of its nine or
ten bytes once. -/
theorem unassignedByteCount : Obligations.UnassignedByteCount := by
  intro c hc
  have unlisted (op : Byte) : (lookup (dispatchTable c) op).isNone =
      decide (op ∉ (dispatchTable c).map Prod.fst) := by
    rw [Bool.eq_iff_iff, Option.isNone_iff_eq_none, decide_eq_true_iff, lookup_eq_none_iff]
  simp only [unlisted, length_filter_unlisted (dispatchTable_opcodes_nodup hc)]
  cases h : c.subOpcode <;> simp [dispatchTable, opcodeTable, h]

/-- Settles O30: an opcode is a row of the dispatch table, and operands that are bytes are what
well-formed says. -/
theorem encodableInstructions : Obligations.EncodableInstructions := by
  intro c i
  rw [wf_iff, ← exists_mem_dispatchTable_iff]
  simp only [encode_eq_some_iff]
  constructor
  · rintro ⟨-, op, args, -, hop, hargs⟩
    exact ⟨⟨args, hargs⟩, op, hop⟩
  · rintro ⟨⟨args, hargs⟩, op, hop⟩
    exact ⟨_, op, args, rfl, hop, hargs⟩

/-- Settles O23: the nine are rows of the opcode table, which the dispatch table searches first. -/
theorem opcodeTableRows : Obligations.OpcodeTableRows := by
  intro c row h
  have listed : (BitVec.ofNat 8 row.1, row.2.1) ∈ opcodeTable ∧ row.2.1.width = row.2.2 := by
    revert row
    decide
  exact ⟨lookup_of_mem_opcodeTable listed.1 c, listed.2⟩

/-- Settles O24: each of the table's nine rows, evaluated. -/
theorem opcodeBitsOfTheAssignedBytes : Obligations.OpcodeBitsOfTheAssignedBytes := by
  unfold Obligations.OpcodeBitsOfTheAssignedBytes
  decide

end Sys2Proof.Proofs
end

section
/-! PROOFS. The engine (spec/40_engine.md): the fetch at the top of memory, what a step answers and where
it leaves pc, the states of a run, and the run loop. -/

namespace Sys2Proof.Machine

/-! The fetch above 255 (R101, R102). -/

/-- Above 255 the opcode fetch raises, before any operand is fetched (R101). -/
theorem fetch_opcode_above {s : State} (gt : 255 < s.pc) (c : Config) :
    fetch c s = .error ⟨.addressOutOfRange, s.pc⟩ := by
  simp [fetch, memRead_gt gt]

/-- Under `fault_always` the first operand address above 255 raises (R102). -/
theorem fetch_operand_above_always {c : Config} {s : State} {x : Nat} (le : s.pc ≤ 255)
    (hc : c.operandFetchOob = .faultAlways) (hx : x = s.pc + 1 ∨ (x = s.pc + 2 ∧ s.pc + 1 ≤ 255))
    (gt : 255 < x) : fetch c s = .error ⟨.addressOutOfRange, x⟩ := by
  obtain rfl | ⟨rfl, le_a⟩ := hx
  · simp [fetch, memRead_le le, operandAt_gt_always gt hc]
  · simp [fetch, memRead_le le, operandAt_le le_a, operandAt_gt_always gt hc]

/-- At 255, where the policy allows it, both operands are absent (R102). -/
theorem fetch_255_ifUsed {c : Config} {s : State} (hpc : s.pc = 255)
    (hc : c.operandFetchOob = .faultIfUsed) :
    fetch c s = .ok ⟨s.byteAt s.pc, .absent (s.pc + 1), .absent (s.pc + 2)⟩ := by
  have opcode : s.pc ≤ 255 := by omega
  have a : 255 < s.pc + 1 := by omega
  have b : 255 < s.pc + 2 := by omega
  simp [fetch, memRead_le opcode, operandAt_gt_ifUsed a hc, operandAt_gt_ifUsed b hc]

/-! Conditions that end a step or a handler (R206). -/

/-- A condition of the fetch is the one the step reports. -/
theorem step_endsFaulted_of_fetch_error {c : Config} {s : State} {e : Raised} (hc : c.valid = true)
    (hs : s.status = .running) (hf : fetch c s = .error e) :
    EndsFaulted (stepWith c s) e.cause e.info :=
  ⟨takeFault e s, step_of_fetch_error hc hs hf, rfl⟩

theorem finish_endsFaulted_of_useReg_error {a : Operand} {e : Raised} (h : useReg a = .error e)
    (s : State) (g : Fin 8 → Except Raised State) :
    EndsFaulted (finish s (useReg a >>= g)) e.cause e.info := by
  rw [h]
  exact ⟨takeFault e s, rfl, rfl⟩

/-- Every handler that names an operand checks its first one, a register, before anything else (R205). -/
theorem exec_endsFaulted_of_useReg_error {i : Instr} {a : Operand} {e : Raised}
    (first : i.operands.head? = some a) (h : useReg a = .error e) (s : State) :
    EndsFaulted (exec i s) e.cause e.info := by
  cases i with
  | hlt | ret => cases first
  | _ => cases first; exact finish_endsFaulted_of_useReg_error h s _

/-! Decoding of what was fetched (R104). -/

/-- The decoder reads an instruction exactly where a handler is found, which gets both operands. -/
theorem decode_eq_ok_iff {c : Config} {op : Byte} {a b : Operand} {i : Instr} :
    decode c op a b = .ok i ↔ ∃ m, lookup (dispatchTable c) op = some m ∧ m.instr a b = i := by
  unfold decode
  cases lookup (dispatchTable c) op <;> simp

/-- An instruction at the head of a byte string is what its opcode and the two places after it decode
to. -/
theorem decode_of_decodeBytes {c : Config} {op : Byte} {tail rest : List Byte} {i : Instr}
    (h : decodeBytes c (op :: tail) = .ok (i, rest)) :
    decode c op (operandOf tail 0) (operandOf tail 1) = .ok i := by
  cases hl : lookup (dispatchTable c) op with
  | none => cases (decodeBytes_of_unknown hl tail).symm.trans h
  | some m =>
    rw [decodeBytes_of_lookup hl rfl] at h
    split at h
    · cases h; exact decode_eq_ok_iff.2 ⟨m, hl, rfl⟩
    · cases h

theorem step_of_decode {c : Config} {s : State} {f : Fetched} {i : Instr} (hc : c.valid = true)
    (hs : s.status = .running) (hf : fetch c s = .ok f) (hd : decode c f.opcode f.a f.b = .ok i) :
    stepWith c s = exec i s := by
  obtain ⟨m, hl, rfl⟩ := decode_eq_ok_iff.1 hd
  exact step_of_lookup hc hs hf hl

/-! The answer of a step (R100). -/

/-- Every instruction has a meaning, which is a handler run to its end (R106). -/
theorem exec_next (i : Instr) (s : State) : ∃ t, exec i s = .next t := by
  cases i with
  | hlt => exact ⟨s.halt .hlt, rfl⟩
  | _ => exact finish_next s _

theorem step_next {c : Config} {s : State} (hc : c.valid = true) (hs : s.status = .running) :
    ∃ t, stepWith c s = .next t := by
  cases hf : fetch c s with
  | error e => exact ⟨_, step_of_fetch_error hc hs hf⟩
  | ok f =>
    cases hl : lookup (dispatchTable c) f.opcode with
    | none => exact ⟨_, step_of_unknown hc hs hf hl⟩
    | some m => rw [step_of_lookup hc hs hf hl]; exact exec_next _ s

/-- From an address of the memory only an advance takes pc above it: CALL and RET go to a byte (R101). -/
theorem exec_pc_above {i : Instr} {s t : State} (h : exec i s = .next t) (le : s.pc ≤ 255)
    (gt : 255 < t.pc) : t.pc = s.pc + 2 ∨ t.pc = s.pc + 3 := by
  cases exec_cases h with
  | fault | hlt => exact absurd le (Nat.not_le.2 gt)
  | prn | push | pop => exact .inl rfl
  | ldi | add | sub | mul => exact .inr rfl
  | call k _ => exact absurd (byte_le ((decSp s).reg k)) (Nat.not_le.2 gt)
  | ret => exact absurd (byte_le (s.byteAt s.sp.toNat)) (Nat.not_le.2 gt)

theorem step_pc_above {c : Config} {s t : State} (h : stepWith c s = .next t) (le : s.pc ≤ 255)
    (gt : 255 < t.pc) : t.pc = s.pc + 2 ∨ t.pc = s.pc + 3 := by
  obtain ⟨e, -, rfl⟩ | ⟨f, -, -, rfl⟩ | ⟨f, m, -, -, run⟩ := step_cases h
  · exact absurd le (Nat.not_le.2 gt)
  · exact absurd le (Nat.not_le.2 gt)
  · exact exec_pc_above run le gt

/-! The states of a run (R108). -/

/-- Loading changes nothing but memory (R40). -/
theorem loadBytes_frame (bytes : List Byte) {s t : State} {a : Nat} (h : loadBytes a bytes s = .ok t) :
    t.regs = s.regs ∧ t.pc = s.pc ∧ t.status = s.status ∧ t.out = s.out := by
  induction bytes generalizing a s with
  | nil => cases h; exact ⟨rfl, rfl, rfl, rfl⟩
  | cons v rest ih =>
    unfold loadBytes at h
    by_cases le : a ≤ 255
    · rw [loadPort_le le] at h
      exact ih (s := s.setByte a v) h
    · rw [loadPort_gt (Nat.lt_of_not_le le)] at h
      cases h

/-- A launched state meets the invariant, whatever MEM_INIT and the image are: its memory is canonical,
pc is 0 and the status is Running (R230, R231). -/
theorem launch_inv {memInit : Nat → Byte} {image : List Byte} {s : State}
    (h : launch memInit image = .ok s) (c : Config) : s.Inv c := by
  obtain ⟨-, pc, status, -⟩ := loadBytes_frame image h
  rw [resetWith_pc] at pc
  rw [resetWith_status] at status
  have wf : (resetWith memInit).mem.wf = true := by
    rw [resetWith_mem]
    exact fillMemory_wf memInit le_rfl
  exact ⟨loadBytes_wf image h wf, by omega, statusTrue_of_running status⟩

theorem reachable_inv {c : Config} {s t : State} (inv : s.Inv c) (h : Reachable c s t) : t.Inv c := by
  induction h with
  | start => exact inv
  | step t u _ one ih => exact stepWith_keeps_inv ih one

/-- A run may be taken apart at its first step. -/
theorem reachable_head {c : Config} {s t u : State} (one : stepWith c s = .next t)
    (h : Reachable c t u) : Reachable c s u := by
  induction h with
  | start => exact .step s t .start one
  | step v w _ last ih => exact .step v w ih last

/-! The run loop (R108, R110). -/

theorem ended_iff {s : State} : s.ended = true ↔ s.status ≠ .running := by
  cases h : s.status <;> simp [State.ended, h]

theorem runLoop_of_ended {c : Config} {s : State} (hs : s.status ≠ .running) (fuel : Nat) :
    runLoop c fuel s = .next s := by
  cases fuel with
  | zero => rfl
  | succ n => rw [runLoop, if_pos (ended_iff.2 hs)]

theorem runLoop_of_step {c : Config} {s t : State} (h : stepWith c s = .next t) (fuel : Nat) :
    runLoop c (fuel + 1) s = runLoop c fuel t := by
  have going : ¬ s.ended = true := fun ended => ended_iff.1 ended (step_running h).2
  rw [runLoop, if_neg going, h]

/-- In an admitted configuration the loop answers a state of the run under any fuel. -/
theorem runLoop_reachable {c : Config} (hc : c.valid = true) (fuel : Nat) (s : State) :
    ∃ t, runLoop c fuel s = .next t ∧ Reachable c s t := by
  induction fuel generalizing s with
  | zero => exact ⟨s, rfl, .start⟩
  | succ n ih =>
    by_cases hs : s.status = .running
    · obtain ⟨u, one⟩ := step_next hc hs
      obtain ⟨t, ht, run⟩ := ih u
      exact ⟨t, (runLoop_of_step one n).trans ht, reachable_head one run⟩
    · exact ⟨s, runLoop_of_ended hs _, .start⟩

/-- The loop comes to every state of the run, at the cost of one unit of fuel for each step. -/
theorem runLoop_add_of_reachable {c : Config} {s t : State} (h : Reachable c s t) :
    ∃ cost, ∀ fuel, runLoop c (fuel + cost) s = runLoop c fuel t := by
  induction h with
  | start => exact ⟨0, fun _ => rfl⟩
  | step t u _ one ih =>
    obtain ⟨cost, hcost⟩ := ih
    refine ⟨cost + 1, fun fuel => ?_⟩
    calc runLoop c (fuel + (cost + 1)) s
        = runLoop c (fuel + 1 + cost) s := by rw [Nat.add_right_comm, Nat.add_assoc]
      _ = runLoop c (fuel + 1) t := hcost (fuel + 1)
      _ = runLoop c fuel u := runLoop_of_step one fuel

end Sys2Proof.Machine

namespace Sys2Proof.Proofs
open Sys2Proof.Machine

/-- Settles O11: a condition of the fetch, an unknown opcode and a handler each answer a next state. -/
theorem runningStepAlwaysAnswers : Obligations.RunningStepAlwaysAnswers :=
  fun _ _ => step_next

/-- Settles O12: the inversion of the fetch, and of exec for where pc can go. -/
theorem opcodeFetchReadsAtPc : Obligations.OpcodeFetchReadsAtPc := by
  intro c s hc hs
  refine ⟨fun gt => step_endsFaulted_of_fetch_error hc hs (fetch_opcode_above gt c), fun f hf => ?_,
    fun t le h gt => step_pc_above h le gt⟩
  obtain ⟨le, hop, -, -⟩ := fetch_ok hf
  exact ⟨le, hop⟩

/-- Settles O13: one law of the fetch for each place of pc and each policy. -/
theorem operandFetchFollowsThePolicy : Obligations.OperandFetchFollowsThePolicy := by
  intro c s hc hs le
  refine ⟨fun low => fetch_low (Nat.add_le_add_right low 2) c, fun top always => ?_,
    fun hpc ifUsed => ?_, fun hpc ifUsed => ?_⟩
  · have first : 256 = s.pc + 1 ∨ (256 = s.pc + 2 ∧ s.pc + 1 ≤ 255) := by omega
    exact step_endsFaulted_of_fetch_error hc hs (fetch_operand_above_always le always first (by decide))
  · simpa only [hpc] using fetch_254_ifUsed hpc ifUsed
  · simpa only [hpc] using fetch_255_ifUsed hpc ifUsed

/-- Settles O58: every launch meets the invariant and every step keeps it. -/
theorem everyRunMeetsTheInvariant : Obligations.EveryRunMeetsTheInvariant :=
  fun c _ _ _ _ h => reachable_inv (launch_inv h c)

/-- Settles O59: soundness by induction on the fuel, completeness by induction on the run. -/
theorem runLoopEndsAtTheFirstEndedState : Obligations.RunLoopEndsAtTheFirstEndedState := by
  intro c s
  refine ⟨rfl, fun fuel t _ h => runLoop_of_step h fuel, fun fuel hs => runLoop_of_ended hs fuel,
    fun hc fuel => runLoop_reachable hc fuel s, fun t run ht => ?_⟩
  obtain ⟨cost, hcost⟩ := runLoop_add_of_reachable run
  refine ⟨cost, fun more le => ?_⟩
  rw [← Nat.sub_add_cancel le, hcost, runLoop_of_ended ht]

/-- Settles O14: `use` has a case for each operand form, and `Mnemonic.instr` one for each handler, which
keeps only the operands it names. -/
theorem useOfAnOperand : Obligations.UseOfAnOperand := by
  refine ⟨useByte_present, useByte_absent, fun a a' b b' => ⟨rfl, rfl, fun m hm => ?_⟩⟩
  cases m with
  | prn | push | pop | call => rfl
  | _ => simp at hm

/-- Settles O15: up to pc 253 the fetch delivers the three bytes that the decoder is given, and a handler
that is found is a row of the table. -/
theorem stepRunsTheDecodedInstruction : Obligations.StepRunsTheDecodedInstruction := by
  intro c s i hc hs
  refine ⟨fun f hf hd => step_of_decode hc hs hf hd, fun rest low h => ?_, fun op x y hd => ?_⟩
  · have run : stepWith c s = exec i s :=
      step_of_decode hc hs (fetch_low (Nat.add_le_add_right low 2) c) (decode_of_decodeBytes h)
    exact ⟨run, fun reference => by rw [step, ← reference, run]⟩
  · obtain ⟨m, hl, hi⟩ := decode_eq_ok_iff.1 hd
    exact ⟨(op, m), mem_of_lookup hl, rfl, hi.symm⟩

/-- Settles O17: the halt keeps every field but the status, and the opcode is the byte at pc. -/
theorem unknownOpcodeHalts : Obligations.UnknownOpcodeHalts := by
  intro c s f hc hs hf hl
  obtain ⟨-, hop, -, -⟩ := fetch_ok hf
  have status : (haltUnknown f.opcode s).status = .halted (.unknownOpcode (s.byteAt s.pc) s.pc) := by
    rw [haltUnknown, halt_status, hop]
  exact ⟨_, step_of_unknown hc hs hf hl, status, fun _ => rfl, rfl, fun _ => rfl, rfl⟩

/-- Settles O22: the one operand of each is its first, which its handler checks before anything else. -/
theorem absentOnlyOperandRaises : Obligations.AbsentOnlyOperandRaises := by
  intro s p i hi
  have first : i.operands.head? = some (.absent p) := by
    simp only [List.mem_cons, List.not_mem_nil, or_false] at hi
    obtain rfl | rfl | rfl | rfl := hi <;> rfl
  exact exec_endsFaulted_of_useReg_error first (useReg_absent p) s

end Sys2Proof.Proofs
end

section
/-! PROOFS. HLT, LDI and PRN (spec/41_basic.md): the step that runs each of them, and the end of a run
that HLT alone makes. -/

namespace Sys2Proof.Machine

/-! What each of the three answers; PRN's answer is `exec_prn`. -/

theorem exec_hlt (s : State) : exec .hlt s = .next (s.halt .hlt) := rfl

/-- LDI of a register writes the literal and advances pc by 3 (R122). -/
theorem exec_ldi {s : State} {r : Byte} (h : r.toNat < 8) (v : Byte) :
    exec (.ldi (.present r) (.present v)) s = .next ((s.setReg ⟨r.toNat, h⟩ v).advance 3) := by
  simp [exec, execLdi, useReg_lt h]

/-! The end of a run (R120, R121). -/

theorem halt_sameButStatus (s : State) (r : HaltReason) : SameButStatus s (s.halt r) :=
  ⟨fun _ => rfl, rfl, fun _ => rfl, rfl⟩

/-- A halted state has no next one, in any configuration (R41, R121). -/
theorem stepWith_halt_ne_next (c : Config) (s : State) (r : HaltReason) (u : State) :
    stepWith c (s.halt r) ≠ .next u := by
  intro h
  obtain ⟨-, running⟩ := step_running h
  cases running

/-! The step at an opcode byte, by how many of the three bytes are in memory. -/

/-- Where only the opcode needs to be in memory, the fetch delivers it with operands of some form
(R101, R102). -/
theorem fetch_one_byte {c : Config} {s : State} (le : s.pc ≤ 255)
    (h : s.pc ≤ 253 ∨ c.operandFetchOob = .faultIfUsed) :
    ∃ a b, fetch c s = .ok ⟨s.byteAt s.pc, a, b⟩ := by
  by_cases low : s.pc ≤ 253
  · exact ⟨_, _, fetch_low (Nat.add_le_add_right low 2) c⟩
  · have ifUsed := h.resolve_left low
    obtain top | last : s.pc = 254 ∨ s.pc = 255 := by omega
    · exact ⟨_, _, fetch_254_ifUsed top ifUsed⟩
    · exact ⟨_, _, fetch_255_ifUsed last ifUsed⟩

/-- At the byte 0x01 that a fetch delivers, a step halts (R104, R120). -/
theorem step_hlt {c : Config} {s : State} (hc : c.valid = true) (hs : s.status = .running)
    (le : s.pc ≤ 255) (h : s.pc ≤ 253 ∨ c.operandFetchOob = .faultIfUsed)
    (hop : s.byteAt s.pc = 0x01#8) : stepWith c s = .next (s.halt .hlt) := by
  obtain ⟨a, b, hf⟩ := fetch_one_byte le h
  rw [hop] at hf
  exact step_of_lookup hc hs hf (m := .hlt) rfl

/-- At the byte 0x82 with both operand bytes in memory, a step writes the literal (R104, R122). -/
theorem step_ldi {c : Config} {s : State} {r v : Byte} (hc : c.valid = true) (hs : s.status = .running)
    (low : s.pc + 2 ≤ 255) (hop : s.byteAt s.pc = 0x82#8) (hr : s.byteAt (s.pc + 1) = r)
    (hv : s.byteAt (s.pc + 2) = v) (lt : r.toNat < 8) :
    stepWith c s = .next ((s.setReg ⟨r.toNat, lt⟩ v).advance 3) := by
  have hf := fetch_low low c
  rw [hop, hr, hv] at hf
  exact (step_of_lookup hc hs hf (m := .ldi) rfl).trans (exec_ldi lt v)

/-- At the byte 0x47 with its operand byte in memory, a step emits the register (R104, R124). -/
theorem step_prn {c : Config} {s : State} {r : Byte} (hc : c.valid = true) (hs : s.status = .running)
    (h : s.pc ≤ 253 ∨ (s.pc = 254 ∧ c.operandFetchOob = .faultIfUsed))
    (hop : s.byteAt s.pc = 0x47#8) (hr : s.byteAt (s.pc + 1) = r) (lt : r.toNat < 8) :
    stepWith c s = .next ((s.emit (s.reg ⟨r.toNat, lt⟩)).advance 2) := by
  obtain ⟨_, run⟩ := step_two_bytes hc hs h hop (m := .prn) rfl
  rw [hr] at run
  exact run.trans (exec_prn lt)

end Sys2Proof.Machine

namespace Sys2Proof.Proofs
open Sys2Proof.Machine

/-- Settles O31: the fetch either delivers the opcode, whatever form the operands have, or raises at 256. -/
theorem hltHaltsAndChangesNothingElse : Obligations.HltHaltsAndChangesNothingElse := by
  refine ⟨fun s => ⟨_, exec_hlt s, rfl, halt_sameButStatus s _⟩, fun c s hc hs le hop => ⟨fun h => ?_,
    fun top always => ?_⟩⟩
  · exact ⟨_, step_hlt hc hs le h hop, rfl, halt_sameButStatus s _⟩
  · have first : 256 = s.pc + 1 ∨ (256 = s.pc + 2 ∧ s.pc + 1 ≤ 255) := by omega
    exact step_endsFaulted_of_fetch_error hc hs (fetch_operand_above_always le always first (by decide))

/-- Settles O32: a step starts from a Running state only, and an instruction that is not HLT keeps the
status or ends in a fatal condition. -/
theorem onlyHltEndsARunNormally : Obligations.OnlyHltEndsARunNormally := by
  constructor
  · intro c s t h u
    cases (exec_hlt s).symm.trans h
    exact stepWith_halt_ne_next c s .hlt u
  · intro i s t reason running h halted
    obtain same | ⟨rfl, rfl⟩ | ⟨e, -, rfl⟩ := exec_status_cases h
    · cases halted.symm.trans (same.trans running)
    · cases halted; exact ⟨rfl, rfl⟩
    · cases halted

/-- Settles O35: LDI changes neither memory nor the output, so PRN is fetched from the bytes at pc + 3 and
reads the register that LDI wrote. -/
theorem ldiThenPrnEmitsTheLiteral : Obligations.LdiThenPrnEmitsTheLiteral := by
  intro c s r v hc hs lt hldi hr hv hprn hr' within
  have low : s.pc + 2 ≤ 255 := by omega
  have place : s.pc + 3 ≤ 253 ∨ (s.pc + 3 = 254 ∧ c.operandFetchOob = .faultIfUsed) := by
    obtain le | ⟨ifUsed, le⟩ := within
    · exact .inl (by omega)
    · obtain below | top : s.pc + 3 ≤ 253 ∨ s.pc + 3 = 254 := by omega
      · exact .inl below
      · exact .inr ⟨top, ifUsed⟩
  refine ⟨_, _, step_ldi hc hs low hldi hr hv lt,
    step_prn (s := (s.setReg ⟨r.toNat, lt⟩ v).advance 3) hc hs place hprn hr' lt, ?_, hs, rfl⟩
  rw [advance_out, emit_out, advance_out, setReg_out, advance_reg, setReg_reg_same]

/-- Settles O33: the law of a read after a write, for the register and for the others. -/
theorem ldiWritesTheLiteral : Obligations.LdiWritesTheLiteral := by
  intro s r v lt
  refine ⟨_, exec_ldi lt v, setReg_reg_same s _ v, fun k other => ?_, rfl, fun _ => rfl, rfl, rfl⟩
  exact setReg_reg_of_ne s (List.ne_of_not_mem_cons other) v

/-- Settles O34: PRN's effect touches the output and pc alone. -/
theorem prnEmitsTheRegister : Obligations.PrnEmitsTheRegister :=
  fun _ _ lt => ⟨_, exec_prn lt, rfl, fun _ _ => rfl, rfl, fun _ => rfl, rfl⟩

end Sys2Proof.Proofs
end

section
/-! PROOFS. The ALU (spec/42_alu.md): its results as byte arithmetic, its one write-back, and the three
instructions over it. -/

namespace Sys2Proof.Machine

/-! The results (R144, R146, R148). -/

theorem aluResult_add (a b : Byte) : aluResult .add a b = .ok (a + b) := by
  have sum : narrow (a.toNat + b.toNat) = a + b := BitVec.eq_of_toNat_eq rfl
  rw [aluResult, sum]

/-- The sum with the negation is the difference: both reduce modulo 256 once more. -/
theorem aluResult_sub (a b : Byte) : aluResult .sub a b = .ok (a - b) := by
  have difference : narrow (a.toNat + (256 - b.toNat) % 256) = a - b := by
    apply BitVec.eq_of_toNat_eq
    rw [narrow, BitVec.toNat_ofNat, BitVec.toNat_sub]
    omega
  rw [aluResult, difference]

theorem aluResult_mul (a b : Byte) : aluResult .mul a b = .ok (a * b) := by
  have product : narrow (a.toNat * b.toNat) = a * b := BitVec.eq_of_toNat_eq rfl
  rw [aluResult, product]

/-- The difference of two bytes as integers, narrowed (R146). -/
theorem ofInt_toNat_sub (a b : Byte) : BitVec.ofInt 8 ((a.toNat : Int) - (b.toNat : Int)) = a - b := by
  rw [Int.sub_eq_add_neg, BitVec.ofInt_add, BitVec.ofInt_neg, BitVec.ofInt_natCast,
    BitVec.ofInt_natCast, BitVec.ofNat_toNat, BitVec.ofNat_toNat, BitVec.setWidth_eq,
    BitVec.setWidth_eq, BitVec.sub_eq_add_neg]

/-! The write-back (R140, R141). -/

/-- An operation with an exact result changes the destination alone, to that result modulo 256. -/
theorem aluApply_writes {op : AluOp} {d src : Fin 8} {s : State} {n : Nat}
    (h : aluResult op (s.reg d) (s.reg src) = .ok (narrow n)) :
    ∃ t, aluApply op d src s = .ok t ∧ (t.reg d).toNat = n % 256 ∧ SameRegsBut [d] s t ∧
      t.pc = s.pc ∧ SameMemory s t ∧ t.status = s.status ∧ t.out = s.out := by
  refine ⟨s.setReg d (narrow n), by rw [aluApply, h], ?_, fun k other => ?_, rfl, fun _ => rfl, rfl, rfl⟩
  · rw [setReg_reg_same, narrow, BitVec.toNat_ofNat]
  · exact setReg_reg_of_ne s (List.ne_of_not_mem_cons other) _

/-! The instructions over the ALU (R143, R145, R147). -/

/-- The handler of two registers that exist answers the ALU's state with pc advanced by 3. -/
theorem aluHandler_lt {op : AluOp} {s t : State} {d q : Byte} (hd : d.toNat < 8) (hq : q.toNat < 8)
    (h : aluApply op ⟨d.toNat, hd⟩ ⟨q.toNat, hq⟩ s = .ok t) :
    aluHandler op (.present d) (.present q) s = .next (t.advance 3) := by
  simp [aluHandler, useReg_lt hd, useReg_lt hq, h]

/-- So an instruction whose operation has an exact result writes it modulo 256, and advances pc. -/
theorem aluHandler_writes {op : AluOp} {s : State} {d q : Byte} {n : Nat} (hd : d.toNat < 8)
    (hq : q.toNat < 8)
    (h : aluResult op (s.reg ⟨d.toNat, hd⟩) (s.reg ⟨q.toNat, hq⟩) = .ok (narrow n)) :
    ∃ t, aluHandler op (.present d) (.present q) s = .next t ∧
      (t.reg ⟨d.toNat, hd⟩).toNat = n % 256 ∧ SameRegsBut [⟨d.toNat, hd⟩] s t ∧ t.pc = s.pc + 3 ∧
      SameMemory s t ∧ t.status = s.status ∧ t.out = s.out := by
  obtain ⟨t, run, result, regs, pc, mem, status, out⟩ := aluApply_writes h
  exact ⟨t.advance 3, aluHandler_lt hd hq run, result, regs, congrArg (· + 3) pc, mem, status, out⟩

/-! The conditions a step can end in (R201 to R203). -/

/-- A step that starts Running and ends Faulted names one of the two conditions that a fetch or a
handler raises, neither of which is the ALU's. -/
theorem step_fault_cause {c : Config} {s t : State} {cause : Cause} {info : Nat}
    (h : stepWith c s = .next t) (faulted : t.status = .faulted cause info) :
    cause = .addressOutOfRange ∨ cause = .registerOutOfRange := by
  obtain ⟨-, running⟩ := step_running h
  obtain ⟨e, hf, rfl⟩ | ⟨f, -, -, rfl⟩ | ⟨f, m, -, -, h⟩ := step_cases h
  · cases faulted
    obtain ⟨hc, -⟩ := fetch_error hf
    exact .inl hc
  · cases faulted
  · obtain same | ⟨-, rfl⟩ | ⟨e, he, rfl⟩ := exec_status_cases h
    · cases faulted.symm.trans (same.trans running)
    · cases faulted
    · cases faulted
      exact he.imp And.left And.left

end Sys2Proof.Machine

namespace Sys2Proof.Proofs
open Sys2Proof.Machine

/-- Settles O20: the ALU's own condition is not one of the two that a step can end in. -/
theorem unsupportedOperationReachedByNoStep : Obligations.UnsupportedOperationReachedByNoStep := by
  refine ⟨fun code d src s => rfl, fun c s t info _ h faulted => ?_⟩
  obtain address | register := step_fault_cause h faulted
  · cases address
  · cases register

/-- Settles O37: the results are byte sum, difference and product, and narrowing commutes with the
arithmetic of the integers that bytes stand for. -/
theorem aluLaws : Obligations.AluLaws := by
  intro a b
  have signedSum : BitVec.ofInt 8 (a.toInt + b.toInt) = a + b := by
    rw [BitVec.ofInt_add, BitVec.ofInt_toInt, BitVec.ofInt_toInt]
  have signedProduct : BitVec.ofInt 8 (a.toInt * b.toInt) = a * b := by
    rw [BitVec.ofInt_mul, BitVec.ofInt_toInt, BitVec.ofInt_toInt]
  simp only [aluResult_add, aluResult_sub, aluResult_mul, signedSum, ofInt_toNat_sub, signedProduct,
    BitVec.add_comm b a, BitVec.add_zero, BitVec.sub_zero, BitVec.sub_self, BitVec.mul_one,
    BitVec.mul_zero, and_self]

/-- Settles O36: `aluResult` defines each of the three results as the narrowing of an exact one. -/
theorem aluWritesBackOneRegister : Obligations.AluWritesBackOneRegister :=
  fun _ _ _ => ⟨aluApply_writes rfl, aluApply_writes rfl, aluApply_writes rfl⟩

/-- Settles O38: ADD is the handler whose exact result is the sum. -/
theorem addWritesTheSumModulo256 : Obligations.AddWritesTheSumModulo256 :=
  fun _ _ _ hd hq => aluHandler_writes (op := .add) hd hq rfl

/-- Settles O39: SUB is the handler whose exact result is the sum with the negation. -/
theorem subWritesTheDifferenceModulo256 : Obligations.SubWritesTheDifferenceModulo256 :=
  fun _ _ _ hd hq => aluHandler_writes (op := .sub) hd hq rfl

/-- Settles O40: MUL is the handler whose exact result is the product. -/
theorem mulWritesTheProductModulo256 : Obligations.MulWritesTheProductModulo256 :=
  fun _ _ _ hd hq => aluHandler_writes (op := .mul) hd hq rfl

end Sys2Proof.Proofs
end

section
/-! PROOFS. The stack (spec/43_stack.md): how SP moves, what PUSH and POP leave, and that no stack access
raises AddressOutOfRange. -/

namespace Sys2Proof.Machine

/-! The decrement and the increment of SP (R161). -/

theorem decSp_sp (s : State) : (decSp s).sp = s.sp - 1#8 := setReg_reg_same s 7 _

theorem incSp_sp (s : State) : (incSp s).sp = s.sp + 1#8 := setReg_reg_same s 7 _

theorem decSp_reg_of_ne (s : State) {k : Fin 8} (ne : k ≠ 7) : (decSp s).reg k = s.reg k :=
  setReg_reg_of_ne s ne _

theorem incSp_reg_of_ne (s : State) {k : Fin 8} (ne : k ≠ 7) : (incSp s).reg k = s.reg k :=
  setReg_reg_of_ne s ne _

theorem decSp_sp_toNat (s : State) : (decSp s).sp.toNat = (s.sp.toNat + 255) % 256 := by
  rw [decSp_sp, BitVec.toNat_sub, Nat.add_comm]
  rfl

theorem incSp_sp_toNat (s : State) : (incSp s).sp.toNat = (s.sp.toNat + 1) % 256 := by
  rw [incSp_sp, BitVec.toNat_add]
  rfl

/-- A register written with the value it holds changes nothing. -/
theorem setReg_reg_self (s : State) (k : Fin 8) : s.setReg k (s.reg k) = s := by
  refine state_ext _ (fun j => ?_) rfl rfl rfl rfl
  rw [setReg_reg]
  split
  · next e => rw [e]
  · rfl

/-- The increment undoes the decrement, wrapping or not (R161). -/
theorem incSp_decSp_reg (s : State) (k : Fin 8) : (incSp (decSp s)).reg k = s.reg k := by
  by_cases sp : k = 7
  · subst sp
    calc (incSp (decSp s)).sp
      _ = s.sp - 1#8 + 1#8 := by rw [incSp_sp, decSp_sp]
      _ = s.sp := BitVec.sub_add_cancel s.sp 1#8
  · rw [incSp_reg_of_ne _ sp, decSp_reg_of_ne s sp]

/-! POP of a register that exists; PUSH's answer is `exec_push`. -/

/-- POP writes its register with the byte at SP, then increments SP and advances pc by 2 (R166). -/
theorem exec_pop {s : State} {r : Byte} (h : r.toNat < 8) :
    exec (.pop (.present r)) s =
      .next ((incSp (s.setReg ⟨r.toNat, h⟩ (s.byteAt s.sp.toNat))).advance 2) := by
  simp [exec, execPop, useReg_lt h]

/-- POP of a register that holds the byte at SP already only increments SP. -/
theorem exec_pop_of_reg_eq {s : State} {r : Byte} (h : r.toNat < 8)
    (top : s.byteAt s.sp.toNat = s.reg ⟨r.toNat, h⟩) :
    exec (.pop (.present r)) s = .next ((incSp s).advance 2) := by
  rw [exec_pop h, top, setReg_reg_self]

/-! AddressOutOfRange (R201): a handler raises it on an absent operand or as CALL's return address. -/

/-- An instruction with every operand present, other than CALL, never ends a Running state in
AddressOutOfRange. -/
theorem exec_status_ne_addressOutOfRange {i : Instr} {s t : State} (present : i.wf = true)
    (notCall : i.mnemonic ≠ .call) (running : s.status = .running) (h : exec i s = .next t)
    (info : Nat) : t.status ≠ .faulted .addressOutOfRange info := by
  intro faulted
  obtain same | ⟨-, rfl⟩ | ⟨e, ⟨-, absent | ⟨call, -⟩⟩ | ⟨register, -⟩, rfl⟩ := exec_status_cases h
  · cases faulted.symm.trans (same.trans running)
  · cases faulted
  · obtain ⟨args, operands⟩ := wf_iff.1 present
    simp [operands] at absent
  · exact notCall call
  · cases register.symm.trans (Status.faulted.inj faulted).1

end Sys2Proof.Machine

namespace Sys2Proof.Proofs
open Sys2Proof.Machine

/-- Settles O41: the store is at the decremented SP; register 7 alone is moved by the decrement, so that
PUSH R7 stores the new SP. -/
theorem pushStoresBelowTheStackTop : Obligations.PushStoresBelowTheStackTop := by
  intro s r h wf
  have stored := push_byteAt_sp wf ((decSp s).reg ⟨r.toNat, h⟩)
  refine ⟨_, exec_push h, decSp_sp_toNat s, fun k other => ?_, stored, rfl, fun ne => ?_, fun eq => ?_,
    exec_sameMemoryBut (exec_push h) wf, rfl, rfl, rfl⟩
  · exact decSp_reg_of_ne s (List.ne_of_not_mem_cons other)
  · exact stored.trans (decSp_reg_of_ne s (Fin.ne_of_val_ne ne))
  · exact stored.trans (congrArg (decSp s).reg (Fin.ext eq))

/-- Settles O42: the increment reads SP after the write, which is the old SP for R0 to R6 and the popped
byte for R7. -/
theorem popLoadsTheStackTop : Obligations.PopLoadsTheStackTop := by
  intro s r h
  refine ⟨_, exec_pop h, fun ne => ⟨?_, ?_⟩, fun eq => ?_, fun k other => ?_, fun _ => rfl, rfl, rfl, rfl⟩
  · rw [advance_reg, incSp_reg_of_ne _ (Fin.ne_of_val_ne ne), setReg_reg_same]
  · have sp : (s.setReg ⟨r.toNat, h⟩ (s.byteAt s.sp.toNat)).sp = s.sp :=
      setReg_reg_of_ne s (Fin.ne_of_val_ne (Ne.symm ne)) _
    exact (incSp_sp_toNat _).trans (by rw [sp])
  · have sp : (s.setReg ⟨r.toNat, h⟩ (s.byteAt s.sp.toNat)).sp = s.byteAt s.sp.toNat :=
      (setReg_reg s _ 7 _).trans (if_pos (Fin.ext eq.symm))
    exact (incSp_sp_toNat _).trans (by rw [sp])
  · obtain ⟨notDest, notSp⟩ := List.ne_and_not_mem_of_not_mem_cons other
    rw [advance_reg, incSp_reg_of_ne _ (List.ne_of_not_mem_cons notSp), setReg_reg_of_ne s notDest]

/-- Settles O43: after PUSH the byte at SP is the register as the decrement left it, so POP writes what
the register holds already and its increment undoes the decrement. -/
theorem pushThenPopRestoresRegisters : Obligations.PushThenPopRestoresRegisters := by
  intro s r h wf
  have stored := push_byteAt_sp wf ((decSp s).reg ⟨r.toNat, h⟩)
  have others := exec_sameMemoryBut (exec_push h) wf
  rw [← decSp_sp]
  exact ⟨_, _, exec_push h, exec_pop_of_reg_eq h stored, incSp_decSp_reg s, stored, others⟩

/-- Settles O44: SP is a byte, hence an address of the memory, and the operand of PUSH and POP is
present. -/
theorem stackPointerWrapsAndNeverFaults : Obligations.StackPointerWrapsAndNeverFaults := by
  refine ⟨fun s bottom => ?_, fun s top => ?_, fun s v e => ⟨?_, ?_⟩, fun s t r info running run => ?_⟩
  · rw [decSp_sp, bottom]; rfl
  · rw [incSp_sp, top]; rfl
  · rw [storeTop_eq]; nofun
  · rw [loadTop_eq]; nofun
  · obtain push | pop | ret := run
    · exact exec_status_ne_addressOutOfRange rfl (by simp [Instr.mnemonic]) running push info
    · exact exec_status_ne_addressOutOfRange rfl (by simp [Instr.mnemonic]) running pop info
    · exact exec_status_ne_addressOutOfRange rfl (by simp [Instr.mnemonic]) running ret info

end Sys2Proof.Proofs
end

section
/-! PROOFS. Subroutines (spec/44_subroutine.md): what CALL and RET leave, the return after a CALL, and
that no other instruction sets pc. -/

namespace Sys2Proof.Machine

/-- RET goes to the byte at SP and increments SP (R185); CALL's answer is `exec_call`. -/
theorem exec_ret (s : State) :
    exec .ret s = .next ((incSp s).setPc (s.byteAt s.sp.toNat).toNat) := by
  simp [exec, execRet]

/-- Where SP stands as a decrement left it, the increment restores it, wrapping or not (R161). -/
theorem incSp_sp_of_sp_eq_decSp {s u : State} (h : u.sp = (decSp s).sp) : (incSp u).sp = s.sp := by
  rw [incSp_sp, h, decSp_sp, BitVec.sub_add_cancel]

/-- CALL changes no register but SP (R182). -/
theorem exec_call_reg_of_ne {a : Operand} {s t : State} (h : exec (.call a) s = .next t) {k : Fin 8}
    (ne : k ≠ 7) : t.reg k = s.reg k := by
  cases exec_cases h with
  | fault => rfl
  | call _ _ => exact decSp_reg_of_ne s ne

/-- Every instruction but CALL and RET keeps pc, when it halts or raises, or advances it by its own width
(R106, R180). -/
theorem exec_pc_of_ne_call_ret {i : Instr} {s t : State} (h : exec i s = .next t)
    (notCall : i.mnemonic ≠ .call) (notRet : i.mnemonic ≠ .ret) :
    t.pc = s.pc ∨ t.pc = s.pc + i.width := by
  cases exec_cases h with
  | fault | hlt => exact .inl rfl
  | call => exact absurd rfl notCall
  | ret => exact absurd rfl notRet
  | _ => exact .inr rfl

end Sys2Proof.Machine

namespace Sys2Proof.Proofs
open Sys2Proof.Machine

/-- Settles O45: the return address fits the byte at the decremented SP; the target is read after the
decrement, which moves register 7 alone, so that CALL R7 jumps to the new SP. -/
theorem callPushesTheReturnAddressAndJumps : Obligations.CallPushesTheReturnAddressAndJumps := by
  intro s r h wf le
  have run := exec_call h le
  refine ⟨_, run, decSp_sp_toNat s, fun k other => ?_, rfl, ?_, exec_sameMemoryBut run wf, fun ne => ?_,
    fun eq => ?_, rfl, rfl⟩
  · exact exec_call_reg_of_ne run (List.ne_of_not_mem_cons other)
  · rw [setPc_byteAt, push_byteAt_sp wf, narrow_toNat_le le]
  · exact congrArg BitVec.toNat (decSp_reg_of_ne s (Fin.ne_of_val_ne ne))
  · exact congrArg (fun k => ((decSp s).reg k).toNat) (Fin.ext eq)

/-- Settles O47: CALL leaves SP decremented, so RET's increment restores it, and RET jumps to the return
address that the byte at SP still holds. -/
theorem retReturnsAfterTheCall : Obligations.RetReturnsAfterTheCall := by
  intro s t u r h le call sp back
  cases (exec_call h le).symm.trans call
  exact ⟨_, exec_ret u, back, incSp_sp_of_sp_eq_decSp sp⟩

/-- Settles O53: CALL's target is the register that O52 says, which the push keeps unless it is register
7, and RET's is the byte at SP. -/
theorem onlyCallAndRetSetPc : Obligations.OnlyCallAndRetSetPc := by
  intro i s t running h
  refine ⟨exec_pc_of_ne_call_ret h, fun a call still => ?_, fun ret => ?_⟩
  · subst call
    obtain ⟨k, names, target⟩ := (nextPcOfEachInstruction _ s t running h).2 still
    refine ⟨target.trans_le (byte_le _), k, names, target, fun ne => ?_⟩
    rw [target, exec_call_reg_of_ne h ne]
  · subst ret
    cases (exec_ret s).symm.trans h
    exact ⟨byte_le _, rfl⟩

/-- Settles O46: RET loads the byte at SP, increments SP and writes nothing else but pc. -/
theorem retPopsThePc : Obligations.RetPopsThePc := by
  intro s
  refine ⟨_, exec_ret s, rfl, incSp_sp_toNat s, fun k other => ?_, fun _ => rfl, rfl, rfl⟩
  exact incSp_reg_of_ne s (List.ne_of_not_mem_cons other)

end Sys2Proof.Proofs
end

section
/-! PROOFS. Exceptions (spec/60_exceptions.md): what STATUS reports, that a fatal condition changes nothing
but the status, and which of several conditions is the one reported. -/

namespace Sys2Proof.Machine

/-! STATUS (R42, R200), one equation for each status. -/

theorem statusPort_running {s : State} (h : s.status = .running) : statusPort s = ⟨0, 0, .nothing⟩ := by
  simp only [statusPort, h]

theorem statusPort_hlt {s : State} (h : s.status = .halted .hlt) : statusPort s = ⟨1, 0, .nothing⟩ := by
  simp only [statusPort, h]

theorem statusPort_unknownOpcode {s : State} {op : Byte} {pc : Nat}
    (h : s.status = .halted (.unknownOpcode op pc)) : statusPort s = ⟨1, 4, .opcodeAt op pc⟩ := by
  simp only [statusPort, h]

theorem statusPort_faulted {s : State} {cause : Cause} {info : Nat}
    (h : s.status = .faulted cause info) : statusPort s = ⟨2, cause.code, .value info⟩ := by
  simp only [statusPort, h]

/-! A fatal condition keeps everything but the status (R206). -/

theorem takeFault_sameButStatus (e : Raised) (s : State) : SameButStatus s (takeFault e s) :=
  ⟨takeFault_reg s e, takeFault_pc s e, takeFault_byteAt e s, takeFault_out s e⟩

/-- A handler that ends a Running state Faulted has taken a condition from that state. -/
theorem exec_faulted {i : Instr} {s t : State} {cause : Cause} {info : Nat} (running : s.status = .running)
    (h : exec i s = .next t) (faulted : t.status = .faulted cause info) : ∃ e, t = takeFault e s := by
  obtain same | ⟨-, rfl⟩ | ⟨e, -, rfl⟩ := exec_status_cases h
  · cases faulted.symm.trans (same.trans running)
  · cases faulted
  · exact ⟨e, rfl⟩

/-- So has a step, whether the fetch or a handler raised it. -/
theorem step_faulted {c : Config} {s t : State} {cause : Cause} {info : Nat}
    (h : stepWith c s = .next t) (faulted : t.status = .faulted cause info) : ∃ e, t = takeFault e s := by
  obtain ⟨-, running⟩ := step_running h
  obtain ⟨e, -, rfl⟩ | ⟨f, -, -, rfl⟩ | ⟨f, m, -, -, run⟩ := step_cases h
  · exact ⟨e, rfl⟩
  · cases faulted
  · exact exec_faulted running run faulted

/-! The order of a handler's checks (R205): the first operand, which `exec_endsFaulted_of_useReg_error`
says of every handler, and then the check after it. -/

theorem operands_head?_of_one_operand (a : Operand) :
    ∀ i ∈ [Instr.prn a, .push a, .pop a, .call a], i.operands.head? = some a := by
  simp [Instr.operands]

theorem operands_head?_of_two_operands (a b : Operand) :
    ∀ i ∈ [Instr.ldi a b, .add a b, .sub a b, .mul a b], i.operands.head? = some a := by
  simp [Instr.operands]

/-- Once the first operand names a register, the next check that raises decides, whatever follows it. -/
theorem finish_endsFaulted_of_second_error {α : Type} {a : Operand} {k : Fin 8} {x : Except Raised α}
    {e : Raised} (ha : useReg a = .ok k) (hx : x = .error e) (s : State)
    (g : Fin 8 → α → Except Raised State) :
    EndsFaulted (finish s (useReg a >>= fun r => x >>= g r)) e.cause e.info := by
  rw [ha, hx]
  exact ⟨takeFault e s, rfl, rfl⟩

/-- In ADD, SUB and MUL that check is the second register operand (R143, R145, R147). -/
theorem alu_endsFaulted_of_second_error {a b : Operand} {k : Fin 8} {e : Raised}
    (ha : useReg a = .ok k) (hb : useReg b = .error e) (s : State) :
    ∀ i ∈ [Instr.add a b, .sub a b, .mul a b], EndsFaulted (exec i s) e.cause e.info := by
  have handler (op : AluOp) : EndsFaulted (aluHandler op a b s) e.cause e.info :=
    finish_endsFaulted_of_second_error ha hb s _
  simp only [List.forall_mem_cons]
  exact ⟨handler .add, handler .sub, handler .mul, nofun⟩

end Sys2Proof.Machine

namespace Sys2Proof.Proofs
open Sys2Proof.Machine

/-- Settles O18: the fetch's own order, then each handler's, where a check is reached only when those
before it have answered. -/
theorem firstConditionInOrderIsReported : Obligations.FirstConditionInOrderIsReported := by
  intro c s hc hs
  refine ⟨fun gt => ?opcodeFetch, fun x le always place gt first => ?operandFetch,
    fun f hf hl => ?unknownOpcode, fun p b i hi => ?useA, fun r b gt i hi => ?indexA,
    fun r p le => ?useB, fun r q le gt => ?indexB, fun p => ?callUse, fun r gt => ?callIndex,
    fun r le gt => ?callReturnAddress⟩
  case opcodeFetch => exact step_endsFaulted_of_fetch_error hc hs (fetch_opcode_above gt c)
  case operandFetch =>
    have place : x = s.pc + 1 ∨ (x = s.pc + 2 ∧ s.pc + 1 ≤ 255) :=
      place.imp_right fun eq => ⟨eq, first eq⟩
    exact step_endsFaulted_of_fetch_error hc hs (fetch_operand_above_always le always place gt)
  case unknownOpcode => exact ⟨_, step_of_unknown hc hs hf hl, rfl⟩
  case useA =>
    exact exec_endsFaulted_of_useReg_error (operands_head?_of_two_operands _ b i hi) (useReg_absent p) s
  case indexA =>
    exact exec_endsFaulted_of_useReg_error (operands_head?_of_two_operands _ b i hi) (useReg_ge gt) s
  case useB =>
    have names := useReg_lt (Nat.lt_succ_of_le le)
    exact List.forall_mem_cons.2 ⟨finish_endsFaulted_of_second_error names (useByte_absent p) s _,
      alu_endsFaulted_of_second_error names (useReg_absent p) s⟩
  case indexB =>
    exact alu_endsFaulted_of_second_error (useReg_lt (Nat.lt_succ_of_le le)) (useReg_ge gt) s
  case callUse => exact exec_endsFaulted_of_useReg_error rfl (useReg_absent p) s
  case callIndex => exact exec_endsFaulted_of_useReg_error rfl (useReg_ge gt) s
  case callReturnAddress =>
    exact finish_endsFaulted_of_second_error (useReg_lt (Nat.lt_succ_of_le le)) (returnAddress_gt gt) s _

/-- Settles O19: the one way to end Faulted is to take a condition from the state before. -/
theorem faultChangesNothingButStatus : Obligations.FaultChangesNothingButStatus := by
  intro c i s t cause info running h faulted
  have taken : ∃ e, t = takeFault e s :=
    h.elim (step_faulted · faulted) (exec_faulted running · faulted)
  obtain ⟨e, rfl⟩ := taken
  exact takeFault_sameButStatus e s

/-- Settles O21: the index is the first operand, which is checked before anything else, or the second of
an ALU instruction whose first names a register. -/
theorem registerIndexAbove7Raises : Obligations.RegisterIndexAbove7Raises := by
  intro s r ge
  have raises := useReg_ge ge
  refine ⟨fun v => exec_endsFaulted_of_useReg_error rfl raises s, fun i hi => ?_, fun q i hi => ?_,
    fun d le => alu_endsFaulted_of_second_error (useReg_lt (Nat.lt_succ_of_le le)) raises s⟩
  · exact exec_endsFaulted_of_useReg_error (operands_head?_of_one_operand _ i hi) raises s
  · have first := operands_head?_of_two_operands (.present r) (.present q) i (List.mem_cons_of_mem _ hi)
    exact exec_endsFaulted_of_useReg_error first raises s

/-- Settles O5: the equation of STATUS for each status, where the code of a fault is its cause's. -/
theorem statusPortFields : Obligations.StatusPortFields :=
  fun _ => ⟨statusPort_running, statusPort_hlt, fun _ _ => statusPort_unknownOpcode,
    fun _ => statusPort_faulted, fun _ => statusPort_faulted, fun _ => statusPort_faulted⟩

end Sys2Proof.Proofs
end

section
/-! PROOFS. Reset and launch (spec/70_reset_and_hazards.md): what a load at consecutive addresses leaves
in each cell and when it fails, and that the invariant holds where every run begins. -/

namespace Sys2Proof.Machine

/-! Reset (R230). -/

theorem resetWith_wf (memInit : Nat → Byte) : (resetWith memInit).mem.wf = true := by
  rw [resetWith_mem]
  exact fillMemory_wf memInit le_rfl

theorem resetWith_byteAt (memInit : Nat → Byte) {a : Nat} (lt : a < 256) :
    (resetWith memInit).byteAt a = memInit a := by
  rw [State.byteAt, resetWith_mem]
  exact fillMemory_get memInit le_rfl lt

/-- The canonical form lists no cell that reads as an unlisted one, so filling with that byte lists
nothing. -/
theorem fillMemory_unlistedByte (n : Nat) : fillMemory (fun _ => unlistedByte) n = [] := by
  induction n with
  | zero => rfl
  | succ n ih => rw [fillMemory, ih]; rfl

theorem resetWith_unlistedByte : resetWith (fun _ => unlistedByte) = State.reset := by
  rw [resetWith, fillMemory_unlistedByte]
  rfl

/-! Bytes written at consecutive addresses (R40, R231). -/

theorem loadBytes_cons_le {a : Nat} (le : a ≤ 255) (v : Byte) (rest : List Byte) (s : State) :
    loadBytes a (v :: rest) s = loadBytes (a + 1) rest (s.setByte a v) := by
  rw [loadBytes, loadPort_le le]

theorem loadBytes_cons_gt {a : Nat} (gt : 255 < a) (v : Byte) (rest : List Byte) (s : State) :
    loadBytes a (v :: rest) s = .error ⟨.addressOutOfRange, a⟩ := by
  rw [loadBytes, loadPort_gt gt]

/-- A load that ends well wrote its first byte inside memory and went on from there. -/
theorem loadBytes_cons_ok {a : Nat} {v : Byte} {rest : List Byte} {s t : State}
    (h : loadBytes a (v :: rest) s = .ok t) :
    a ≤ 255 ∧ loadBytes (a + 1) rest (s.setByte a v) = .ok t := by
  by_cases le : a ≤ 255
  · exact ⟨le, loadBytes_cons_le le v rest s ▸ h⟩
  · rw [loadBytes_cons_gt (Nat.lt_of_not_le le)] at h
    cases h

theorem loadBytes_fits (bytes : List Byte) {a : Nat} (fits : a + bytes.length ≤ 256) (s : State) :
    ∃ t, loadBytes a bytes s = .ok t := by
  induction bytes generalizing a s with
  | nil => exact ⟨s, rfl⟩
  | cons v rest ih =>
    rw [List.length_cons] at fits
    rw [loadBytes_cons_le (by omega)]
    exact ih (by omega) _

/-- A load that begins inside memory and does not fit fails at address 256, the first above memory
(decision D20). -/
theorem loadBytes_overflow (bytes : List Byte) {a : Nat} (start : a ≤ 256)
    (gt : 256 < a + bytes.length) (s : State) :
    loadBytes a bytes s = .error ⟨.addressOutOfRange, 256⟩ := by
  induction bytes generalizing a s with
  | nil => exact absurd gt (Nat.not_lt.2 start)
  | cons v rest ih =>
    rw [List.length_cons] at gt
    obtain lt | rfl := Nat.lt_or_eq_of_le start
    · rw [loadBytes_cons_le (Nat.le_of_lt_succ lt)]
      exact ih lt (by omega) _
    · exact loadBytes_cons_gt (by decide) v rest s

/-- A load keeps every cell below its first address. -/
theorem loadBytes_byteAt_below (bytes : List Byte) {s t : State} {a x : Nat}
    (h : loadBytes a bytes s = .ok t) (wf : s.mem.wf = true) (lt : x < a) :
    t.byteAt x = s.byteAt x := by
  induction bytes generalizing a s with
  | nil => cases h; rfl
  | cons v rest ih =>
    obtain ⟨le, tail⟩ := loadBytes_cons_ok h
    rw [ih tail (set_wf wf v (Nat.lt_succ_of_le le)) (Nat.lt_succ_of_lt lt), setByte_byteAt wf,
      if_neg (Nat.ne_of_lt lt)]

/-- From its first address on, a load leaves its bytes and then what stood there before. -/
theorem loadBytes_byteAt (bytes : List Byte) {s t : State} {a : Nat}
    (h : loadBytes a bytes s = .ok t) (wf : s.mem.wf = true) (k : Nat) :
    t.byteAt (a + k) = (bytes[k]?).getD (s.byteAt (a + k)) := by
  induction bytes generalizing a s k with
  | nil => cases h; rfl
  | cons v rest ih =>
    obtain ⟨le, tail⟩ := loadBytes_cons_ok h
    have wf' : (s.setByte a v).mem.wf = true := set_wf wf v (Nat.lt_succ_of_le le)
    cases k with
    | zero =>
      rw [Nat.add_zero, loadBytes_byteAt_below rest tail wf' (Nat.lt_succ_self a), setByte_byteAt wf,
        if_pos rfl]
      rfl
    | succ k =>
      rw [← Nat.add_assoc, Nat.add_right_comm, ih tail wf' k, setByte_byteAt wf, if_neg (by omega),
        List.getElem?_cons_succ]

/-! The launch (R231): the load from address 0 of the state after reset. -/

theorem launch_byteAt {memInit : Nat → Byte} {image : List Byte} {s : State}
    (h : launch memInit image = .ok s) {a : Nat} (lt : a < 256) :
    s.byteAt a = (image[a]?).getD (memInit a) := by
  have loaded := loadBytes_byteAt image h (resetWith_wf memInit) a
  rwa [Nat.zero_add, resetWith_byteAt memInit lt] at loaded

theorem reset_inv (c : Config) : State.reset.Inv c :=
  ⟨nil_wf, Nat.zero_le 258, statusTrue_of_running rfl⟩

end Sys2Proof.Machine

namespace Sys2Proof.Proofs
open Sys2Proof.Machine

/-- Settles O2: the cells are those of the filled memory, and filling with 0, what an unlisted address
reads as, lists none. -/
theorem resetMemoryHoldsMemInit : Obligations.ResetMemoryHoldsMemInit :=
  ⟨fun memInit _ => resetWith_byteAt memInit, resetWith_out, resetWith_unlistedByte.symm⟩

/-- Settles O3: an image that fits loads byte by byte and moves nothing but memory; the byte after the
256th has no cell. -/
theorem launchPlacesTheImage : Obligations.LaunchPlacesTheImage := by
  intro memInit image
  refine ⟨fun le => ?fits, fun gt => ?overflows⟩
  case fits =>
    obtain ⟨s, launched⟩ := loadBytes_fits image ((Nat.zero_add _).trans_le le) (resetWith memInit)
    obtain ⟨regs, pc, status, out⟩ := loadBytes_frame image launched
    exact ⟨s, launched, fun a => launch_byteAt launched, reg_congr regs, pc.trans (resetWith_pc memInit),
      status.trans (resetWith_status memInit), out.trans (resetWith_out memInit)⟩
  case overflows =>
    exact ⟨_, loadBytes_overflow image (Nat.zero_le 256) (by omega) (resetWith memInit)⟩

/-- Settles O56: at reset memory lists nothing, pc is 0 and the status is Running; a launch keeps memory
canonical and changes nothing else. -/
theorem launchMeetsTheInvariant : Obligations.LaunchMeetsTheInvariant :=
  ⟨reset_inv, fun c _ _ _ launched => launch_inv launched c⟩

end Sys2Proof.Proofs
end

section
/-! PROOFS. Memory as data (spec/20_memory.md R50, log entry 2), and an instruction that the host places where
the next step fetches (spec/10_state.md R40, log entry 16). -/

namespace Sys2Proof.Machine

/-! Canonical memories: the bytes say what the list is. -/

/-- The first cell of a canonical memory is an address whose byte is not the unlisted one. -/
theorem head_lt_and_get_head_ne {lo a : Nat} {v : Byte} {rest : Memory}
    (h : Memory.wfFrom lo ((a, v) :: rest) = true) :
    a < 256 ∧ Memory.get ((a, v) :: rest) a ≠ unlistedByte := by
  obtain ⟨-, lt, ne, -⟩ := (wfFrom_cons ..).1 h
  exact ⟨lt, by simpa only [Memory.get, if_pos] using ne⟩

/-- The first cell of a canonical memory is at the least address whose byte is not the unlisted one. -/
theorem head_le_of_get_ne {lo a x : Nat} {v : Byte} {rest : Memory}
    (h : Memory.wfFrom lo ((a, v) :: rest) = true)
    (ne : Memory.get ((a, v) :: rest) x ≠ unlistedByte) : a ≤ x := by
  obtain ⟨-, cell⟩ := (wfFrom_cons ..).1 h
  by_contra lt
  exact ne (get_of_lt ((wfFrom_cons ..).2 ⟨le_rfl, cell⟩) (Nat.lt_of_not_le lt))

/-- Without its first cell a canonical memory reads as unlisted there and as before elsewhere. -/
theorem get_tail {lo a : Nat} {v : Byte} {rest : Memory} (h : Memory.wfFrom lo ((a, v) :: rest) = true)
    (x : Nat) : rest.get x = if x = a then unlistedByte else Memory.get ((a, v) :: rest) x := by
  obtain ⟨-, -, -, wf⟩ := (wfFrom_cons ..).1 h
  split
  · next e => exact get_of_lt wf (by omega)
  · next ne => rw [Memory.get, if_neg ne]

/-- The bytes of a canonical memory determine its list of cells. -/
theorem eq_of_get_eq {lo : Nat} {m n : Memory} (hm : Memory.wfFrom lo m = true)
    (hn : Memory.wfFrom lo n = true) (same : ∀ x, x < 256 → m.get x = n.get x) : m = n := by
  induction m generalizing lo n with
  | nil =>
    cases n with
    | nil => rfl
    | cons c rest =>
      obtain ⟨lt, ne⟩ := head_lt_and_get_head_ne hn
      exact absurd (same _ lt).symm ne
  | cons c rest ih =>
    obtain ⟨a, v⟩ := c
    obtain ⟨lt, ne⟩ := head_lt_and_get_head_ne hm
    cases n with
    | nil => exact absurd (same a lt) ne
    | cons c' rest' =>
      obtain ⟨b, w⟩ := c'
      obtain ⟨lt', ne'⟩ := head_lt_and_get_head_ne hn
      have first : a = b := Nat.le_antisymm (head_le_of_get_ne hm (same b lt' ▸ ne'))
        (head_le_of_get_ne hn (same a lt ▸ ne))
      subst first
      have byte : v = w := by simpa only [Memory.get, if_pos] using same a lt
      obtain ⟨-, -, -, wf⟩ := (wfFrom_cons ..).1 hm
      obtain ⟨-, -, -, wf'⟩ := (wfFrom_cons ..).1 hn
      rw [byte, ih wf wf' fun x hx => by rw [get_tail hm, get_tail hn, same x hx]]

/-! The placing of a word is the host's load of its bytes at pc. -/

theorem loadBytes_eq_placeBytes (bytes : List Byte) {a : Nat} (fits : a + bytes.length ≤ 256) (s : State) :
    loadBytes a bytes s = .ok { s with mem := placeBytes a bytes s.mem } := by
  induction bytes generalizing a s with
  | nil => rfl
  | cons v rest ih =>
    rw [List.length_cons] at fits
    have le : a ≤ 255 := by omega
    rw [loadBytes_cons_le le, ih (by omega), placeBytes, if_pos le]
    rfl

theorem loadBytes_wordBytes {s : State} (low : s.pc ≤ 253) (nbits w : Nat) :
    loadBytes s.pc (wordBytes nbits w) s = .ok (s.withFetchWord nbits w) :=
  loadBytes_eq_placeBytes (wordBytes nbits w) (Nat.add_le_add_right low 3) s

/-- The three bytes from pc on are those of the word that was placed. -/
theorem withFetchWord_bytes {s : State} (wf : s.mem.wf = true) (low : s.pc ≤ 253) (nbits w : Nat) :
    [(s.withFetchWord nbits w).byteAt s.pc, (s.withFetchWord nbits w).byteAt (s.pc + 1),
      (s.withFetchWord nbits w).byteAt (s.pc + 2)] = wordBytes nbits w := by
  have placed := loadBytes_byteAt (wordBytes nbits w) (loadBytes_wordBytes low nbits w) wf
  have opcode : (s.withFetchWord nbits w).byteAt s.pc = narrow (w % 2 ^ nbits) := placed 0
  rw [opcode, placed 1, placed 2]
  rfl

theorem decodeTableWord_eq_some_iff {nbits w : Nat} {i : Instr} :
    decodeTableWord nbits w = some i ↔
      ∃ rest, decodeBytes referenceConfig (wordBytes nbits w) = .ok (i, rest) := by
  unfold decodeTableWord
  cases decodeBytes referenceConfig (wordBytes nbits w) with
  | error r => simp
  | ok d => simp [Prod.ext_iff]

/-- A word whose first byte is an instruction's opcode and whose next bytes are its operands is that
instruction (R70, R71, R75). -/
theorem decodeTableWord_of_bytes {nbits w : Nat} {i : Instr} {op : Byte} (args rest : List Byte)
    (hop : (op, i.mnemonic) ∈ opcodeTable) (hargs : i.operands = args.map .present)
    (word : wordBytes nbits w = op :: (args ++ rest)) : decodeTableWord nbits w = some i := by
  rw [decodeTableWord_eq_some_iff, word]
  exact ⟨rest, decodeBytes_of_bytes rfl (List.mem_append_left _ hop) hargs rest⟩

end Sys2Proof.Machine

namespace Sys2Proof.Proofs
open Sys2Proof.Machine

/-- Settles O9: by induction on the cells; the least address whose byte is not the unlisted one is the first
cell of both memories. -/
theorem canonicalMemoriesWithSameBytesAreEqual : Obligations.CanonicalMemoriesWithSameBytesAreEqual :=
  fun _ _ => eq_of_get_eq

/-- Settles O16: the fetch reads back the three bytes that were placed, and the step runs what they decode
to. -/
theorem placedWordRunsNext : Obligations.PlacedWordRunsNext := by
  intro s nbits w i wf hs low hw
  obtain ⟨rest, decoded⟩ := decodeTableWord_eq_some_iff.1 hw
  obtain ⟨-, fromBytes, -⟩ :=
    stepRunsTheDecodedInstruction referenceConfig (s.withFetchWord nbits w) i rfl hs
  rw [← withFetchWord_bytes wf low] at decoded
  obtain ⟨-, run⟩ := fromBytes rest low decoded
  exact ⟨run rfl, withFetchWord_pc s nbits w, withFetchWord_reg s nbits w⟩

/-- Settles O27: each word is a row's opcode and the operands of that row's width; A1 has no row unless SUB
is wired to it. -/
theorem specWordsDecode : Obligations.SpecWordsDecode := by
  refine ⟨?hlt, ?ldi, ?prn, ?mul, ?push, ?ret, ?unassigned⟩
  case hlt => exact decodeTableWord_of_bytes [] [0x00#8, 0x00#8] (by decide) rfl rfl
  case ldi => exact decodeTableWord_of_bytes [0x00#8, 0x08#8] [] (by decide) rfl rfl
  case prn => exact decodeTableWord_of_bytes [0x09#8] [0x00#8] (by decide) rfl rfl
  case mul => exact decodeTableWord_of_bytes [0x00#8, 0x01#8] [] (by decide) rfl rfl
  case push => exact decodeTableWord_of_bytes [0x07#8] [0x00#8] (by decide) rfl rfl
  case ret => exact decodeTableWord_of_bytes [] [0x00#8, 0x00#8] (by decide) rfl rfl
  case unassigned => rfl

end Sys2Proof.Proofs
end
